-- ==== Sys2Proof/Word.lean ====
section
/-! DEFINITION. The words of the block: bytes, sequence numbers and event codes (00_scope.md R13 to R15). -/

namespace Sys2Proof

/-- One byte, bit 7 the most significant (R13). -/
abbrev Byte := BitVec 8

/-- A sequence number: six bits, cyclic modulo 64 (R15). -/
abbrev Seq := BitVec 6

/-- An event code `ev[3:0]` (R76): bit 3 is the port, bits 2..0 the kind. -/
abbrev EvCode := BitVec 4

end Sys2Proof
end

