-- ==== Sys2Proof/Config.lean ====
section
/-! DEFINITION. What is fixed when the block is built (00_scope.md section 4). -/

namespace Sys2Proof

/-- The configuration, constant for the life of the block (R7, R8). Both values are parameters of the
spec (92_eei_decisions.md D3, D4): every statement holds for all of them. -/
structure Config where
  /-- `MaxApduSize` (R7): the most bytes of a message. -/
  maxApduSize : Nat
  /-- `MaxSegmentUserDataSize`, `S` in the rules' formulas (R8): the most payload bytes of a segment. -/
  maxSegmentUserDataSize : Nat
deriving DecidableEq, Repr

/-- The spec's defaults: 2048 (R7, D3) and 249 (R8, general knowledge G1).
DESIGN CHOICE and PRESUMED, log entry 1. -/
def Config.default : Config := { maxApduSize := 2048, maxSegmentUserDataSize := 249 }

/-- `TxSeqAfterLinkUp = 0`: the transmit counter after `L.LINK_UP`, the named constant R155 asks for
(92_eei_decisions.md D14, 93_implementation_defined.md U5). -/
def Config.txSeqAfterLinkUp : Seq := 0#6

end Sys2Proof
end

