-- ==== Sys2Proof/Syntax.lean ====
section
/-! DEFINITION. The events, the segment and the 26 rows of the opcode table, and the three encoded forms they have. -/

namespace Sys2Proof

/-- The abstract segment of R70. It is never stored: it crosses a port (R32). -/
structure Segment where
  fir : Bool
  fin : Bool
  seq : Seq
  payload : List Byte
deriving DecidableEq, Repr

/-- The six output events of R11, with R11's arguments. -/
inductive OutEvent where
  | lTx (segment : List Byte)
  | uRx (apdu : List Byte)
  | uTxdoneOk
  | uTxdoneFail
  | uLinkUp
  | uLinkDown
deriving DecidableEq, Repr

/-- One constructor per row of spec/opcode_table.json: the sixteen input codes, the six output
codes and the four header classes, in the table's order. -/
inductive Instr where
  /-- `L.LINK_DOWN` (R156). -/
  | lLinkDown
  /-- `L.LINK_UP` (R155). -/
  | lLinkUp
  /-- `L.TXDONE_FAIL` (R116). -/
  | lTxdoneFail
  /-- `L.TXDONE_OK` (R115). -/
  | lTxdoneOk
  /-- `L.RX(segment)` (R131), any byte string (R79). -/
  | lRx (segment : List Byte)
  /-- `U.SEND(apdu)` (R111), any byte string (R79). -/
  | uSend (apdu : List Byte)
  /-- The ten input codes that name no event (R78). -/
  | illegalIn5
  | illegalIn6
  | illegalIn7
  | illegalIn8
  | illegalIn9
  | illegalInA
  | illegalInB
  | illegalInD
  | illegalInE
  | illegalInF
  /-- `L.TX(segment)` (R160), an output event. -/
  | lTx (segment : List Byte)
  /-- `U.LINK_DOWN` (R164), an output event. -/
  | uLinkDown
  /-- `U.LINK_UP` (R163), an output event. -/
  | uLinkUp
  /-- `U.TXDONE_FAIL` (R162), an output event. -/
  | uTxdoneFail
  /-- `U.TXDONE_OK` (R162), an output event. -/
  | uTxdoneOk
  /-- `U.RX(apdu)` (R161), an output event. -/
  | uRx (apdu : List Byte)
  /-- `SEG_MIDDLE(seq, payload)` (R135): receipt of a segment with FIR = 0, FIN = 0. -/
  | segMiddle (seq : Seq) (payload : List Byte)
  /-- `SEG_LAST(seq, payload)` (R136): receipt of a segment with FIR = 0, FIN = 1. -/
  | segLast (seq : Seq) (payload : List Byte)
  /-- `SEG_FIRST(seq, payload)` (R133): receipt of a segment with FIR = 1, FIN = 0. -/
  | segFirst (seq : Seq) (payload : List Byte)
  /-- `SEG_SINGLE(seq, payload)` (R134): receipt of a segment with FIR = 1, FIN = 1. -/
  | segSingle (seq : Seq) (payload : List Byte)
deriving DecidableEq, Repr

/-- One port transaction: an event code and the byte string a DATA event carries (R76). -/
structure Transaction where
  code : EvCode
  data : List Byte
deriving DecidableEq, Repr

/-- An encoded row. Input codes, output codes and segment headers are separate code spaces (R72, R76):
the direction of a transaction, or being the bytes of a segment, tells which. -/
inductive Encoded where
  | evtIn (t : Transaction)
  | evtOut (t : Transaction)
  | tpdu (bytes : List Byte)
deriving DecidableEq, Repr

/-- Why the decoder refuses. -/
inductive DecodeError where
  /-- An event that carries nothing (R76) came with a byte string. -/
  | strayOperand
  /-- An output code outside the six of R77. -/
  | notAnOutputCode
  /-- A byte string of length 0 has no header and is no segment (R75 a). -/
  | noHeader
deriving DecidableEq, Repr

/-- The row of the opcode table that an output event is. -/
def OutEvent.instr : OutEvent → Instr
  | .lTx segment => .lTx segment
  | .uRx apdu => .uRx apdu
  | .uTxdoneOk => .uTxdoneOk
  | .uTxdoneFail => .uTxdoneFail
  | .uLinkUp => .uLinkUp
  | .uLinkDown => .uLinkDown

/-- Is the row an input transaction (format `EVT_IN`)? Only these does the environment present (R11, R78). -/
def Instr.isInput : Instr → Bool
  | .lLinkDown | .lLinkUp | .lTxdoneFail | .lTxdoneOk | .lRx _ | .uSend _ => true
  | .illegalIn5 | .illegalIn6 | .illegalIn7 | .illegalIn8 | .illegalIn9 => true
  | .illegalInA | .illegalInB | .illegalInD | .illegalInE | .illegalInF => true
  | .lTx _ | .uLinkDown | .uLinkUp | .uTxdoneFail | .uTxdoneOk | .uRx _ => false
  | .segMiddle _ _ | .segLast _ _ | .segFirst _ _ | .segSingle _ _ => false

/-- Is the row one of the ten illegal input codes of R78? -/
def Instr.isIllegal : Instr → Bool
  | .illegalIn5 | .illegalIn6 | .illegalIn7 | .illegalIn8 | .illegalIn9 => true
  | .illegalInA | .illegalInB | .illegalInD | .illegalInE | .illegalInF => true
  | .lLinkDown | .lLinkUp | .lTxdoneFail | .lTxdoneOk | .lRx _ | .uSend _ => false
  | .lTx _ | .uLinkDown | .uLinkUp | .uTxdoneFail | .uTxdoneOk | .uRx _ => false
  | .segMiddle _ _ | .segLast _ _ | .segFirst _ _ | .segSingle _ _ => false

end Sys2Proof
end

