-- ==== Sys2Proof/WellFormed.lean ====
section
/-! DEFINITION. Well-formed configurations (R9) and operands within their format (R70, R77, R79). -/

namespace Sys2Proof

/-- R9: `1 <= S` and `S <= MaxApduSize`. -/
abbrev Config.WellFormed (c : Config) : Prop :=
  1 ≤ c.maxSegmentUserDataSize ∧ c.maxSegmentUserDataSize ≤ c.maxApduSize

/-- The operand of `L.TX`: a segment, of 1 to `1 + S` bytes (R77, R160). -/
abbrev Config.TxSegmentFits (c : Config) (segment : List Byte) : Prop :=
  1 ≤ segment.length ∧ segment.length ≤ 1 + c.maxSegmentUserDataSize

/-- The operand of `U.RX`, and what `U.SEND` accepts: at most `MaxApduSize` bytes (R77, R111, R161). -/
abbrev Config.ApduFits (c : Config) (apdu : List Byte) : Prop :=
  apdu.length ≤ c.maxApduSize

/-- The payload of a segment: at most `S` bytes (R70). -/
abbrev Config.PayloadFits (c : Config) (payload : List Byte) : Prop :=
  payload.length ≤ c.maxSegmentUserDataSize

/-- Is the operand one that the row's format admits? `L.RX` and `U.SEND` carry any byte string (R79);
the block, not the format, turns a long one away. -/
def Instr.wellFormed (c : Config) : Instr → Bool
  | .lTx segment => decide (c.TxSegmentFits segment)
  | .uRx apdu => decide (c.ApduFits apdu)
  | .segMiddle _ payload => decide (c.PayloadFits payload)
  | .segLast _ payload => decide (c.PayloadFits payload)
  | .segFirst _ payload => decide (c.PayloadFits payload)
  | .segSingle _ payload => decide (c.PayloadFits payload)
  | .lRx _ | .uSend _ => true
  | .lLinkDown | .lLinkUp | .lTxdoneFail | .lTxdoneOk => true
  | .illegalIn5 | .illegalIn6 | .illegalIn7 | .illegalIn8 | .illegalIn9 => true
  | .illegalInA | .illegalInB | .illegalInD | .illegalInE | .illegalInF => true
  | .uLinkDown | .uLinkUp | .uTxdoneFail | .uTxdoneOk => true

end Sys2Proof
end

