-- ==== Sys2Proof/Decode.lean ====
section
/-! DEFINITION. The segment codec (40_codec.md), the decoder of the three code spaces, the encoder, and the host's table word. -/

namespace Sys2Proof

/-- `ENC_HDR` (R100): bit 7 FIR, bit 6 FIN, bits 5..0 SEQ. -/
def encHdr (fir fin : Bool) (seq : Seq) : Byte :=
  (BitVec.ofBool fir ++ BitVec.ofBool fin ++ seq : BitVec 8)

/-- `hdr[7]` (R101). -/
def hdrFir (hdr : Byte) : Bool := hdr.getLsbD 7

/-- `hdr[6]` (R101). -/
def hdrFin (hdr : Byte) : Bool := hdr.getLsbD 6

/-- `hdr[5:0]` (R101). -/
def hdrSeq (hdr : Byte) : Seq := hdr.extractLsb' 0 6

/-- `DEC_HDR` (R101). -/
def decHdr (hdr : Byte) : Bool × Bool × Seq := (hdrFir hdr, hdrFin hdr, hdrSeq hdr)

/-- `ENC_SEG` (R102): the header byte, then the payload. -/
def encSeg (fir fin : Bool) (seq : Seq) (payload : List Byte) : List Byte :=
  encHdr fir fin seq :: payload

/-- `DEC_SEG` (R103): `none` is the result `invalid`, for a byte string of length 0 only. -/
def decSeg : List Byte → Option Segment
  | [] => none
  | hdr :: payload =>
    some { fir := hdrFir hdr, fin := hdrFin hdr, seq := hdrSeq hdr, payload := payload }

/-- The header-class row of a segment (R72), chosen by its two flag bits. -/
def Segment.instr (g : Segment) : Instr :=
  match g.fir, g.fin with
  | false, false => .segMiddle g.seq g.payload
  | false, true => .segLast g.seq g.payload
  | true, false => .segFirst g.seq g.payload
  | true, true => .segSingle g.seq g.payload

/-- An event that carries nothing beside its code (R76). -/
def bareEvent (data : List Byte) (i : Instr) : Except DecodeError Instr :=
  match data with
  | [] => .ok i
  | _ :: _ => .error .strayOperand

/-- The input code space (R77, R78). The code alone makes an input illegal, whatever came with it. -/
def decodeIn (t : Transaction) : Except DecodeError Instr :=
  match t.code with
  | 0x0#4 => bareEvent t.data .lLinkDown
  | 0x1#4 => bareEvent t.data .lLinkUp
  | 0x2#4 => bareEvent t.data .lTxdoneFail
  | 0x3#4 => bareEvent t.data .lTxdoneOk
  | 0x4#4 => .ok (.lRx t.data)
  | 0xC#4 => .ok (.uSend t.data)
  | 0x5#4 => .ok .illegalIn5
  | 0x6#4 => .ok .illegalIn6
  | 0x7#4 => .ok .illegalIn7
  | 0x8#4 => .ok .illegalIn8
  | 0x9#4 => .ok .illegalIn9
  | 0xA#4 => .ok .illegalInA
  | 0xB#4 => .ok .illegalInB
  | 0xD#4 => .ok .illegalInD
  | 0xE#4 => .ok .illegalInE
  | _ => .ok .illegalInF  -- 0xF, the one code left

/-- The output code space (R77). -/
def decodeOut (t : Transaction) : Except DecodeError Instr :=
  match t.code with
  | 0x4#4 => .ok (.lTx t.data)
  | 0x8#4 => bareEvent t.data .uLinkDown
  | 0x9#4 => bareEvent t.data .uLinkUp
  | 0xA#4 => bareEvent t.data .uTxdoneFail
  | 0xB#4 => bareEvent t.data .uTxdoneOk
  | 0xC#4 => .ok (.uRx t.data)
  | _ => .error .notAnOutputCode

/-- The bytes of a segment (R73): decoding depends on the bytes alone (R71). -/
def decodeSegment (bytes : List Byte) : Except DecodeError Instr :=
  match decSeg bytes with
  | none => .error .noHeader
  | some g => .ok g.instr

/-- The decoder, total over the three code spaces. -/
def decode : Encoded → Except DecodeError Instr
  | .evtIn t => decodeIn t
  | .evtOut t => decodeOut t
  | .tpdu bytes => decodeSegment bytes

/-- The encoder, from the tables of R72 and R77. -/
def encode : Instr → Encoded
  | .lLinkDown => .evtIn ⟨0x0#4, []⟩
  | .lLinkUp => .evtIn ⟨0x1#4, []⟩
  | .lTxdoneFail => .evtIn ⟨0x2#4, []⟩
  | .lTxdoneOk => .evtIn ⟨0x3#4, []⟩
  | .lRx segment => .evtIn ⟨0x4#4, segment⟩
  | .uSend apdu => .evtIn ⟨0xC#4, apdu⟩
  | .illegalIn5 => .evtIn ⟨0x5#4, []⟩
  | .illegalIn6 => .evtIn ⟨0x6#4, []⟩
  | .illegalIn7 => .evtIn ⟨0x7#4, []⟩
  | .illegalIn8 => .evtIn ⟨0x8#4, []⟩
  | .illegalIn9 => .evtIn ⟨0x9#4, []⟩
  | .illegalInA => .evtIn ⟨0xA#4, []⟩
  | .illegalInB => .evtIn ⟨0xB#4, []⟩
  | .illegalInD => .evtIn ⟨0xD#4, []⟩
  | .illegalInE => .evtIn ⟨0xE#4, []⟩
  | .illegalInF => .evtIn ⟨0xF#4, []⟩
  | .lTx segment => .evtOut ⟨0x4#4, segment⟩
  | .uLinkDown => .evtOut ⟨0x8#4, []⟩
  | .uLinkUp => .evtOut ⟨0x9#4, []⟩
  | .uTxdoneFail => .evtOut ⟨0xA#4, []⟩
  | .uTxdoneOk => .evtOut ⟨0xB#4, []⟩
  | .uRx apdu => .evtOut ⟨0xC#4, apdu⟩
  | .segMiddle seq payload => .tpdu (encSeg false false seq payload)
  | .segLast seq payload => .tpdu (encSeg false true seq payload)
  | .segFirst seq payload => .tpdu (encSeg true false seq payload)
  | .segSingle seq payload => .tpdu (encSeg true true seq payload)

/-- The `count` bytes of a table word, the least significant first. -/
def wordBytes : Nat → Nat → List Byte
  | 0, _ => []
  | count + 1, w => BitVec.ofNat 8 w :: wordBytes count (w / 256)

/-- How a table word reads. A first byte below 0x10 is an input event code and the bytes after it are
its operand; a larger one is no event code and is the header byte of a segment. The table word does
not say which code space it is from, and this is the model's reading of it (DESIGN CHOICE, log
entry 5). -/
def tableWord (nbits w : Nat) : Option Encoded :=
  match wordBytes ((nbits + 7) / 8) w with
  | [] => none
  | b :: rest =>
    if b.toNat < 16 then some (.evtIn ⟨b.setWidth 4, rest⟩) else some (.tpdu (b :: rest))

/-- The instruction the decoder reads from a word of the opcode table. -/
def decodeTableWord (nbits w : Nat) : Option Instr :=
  match tableWord nbits w with
  | none => none
  | some e =>
    match decode e with
    | .ok i => some i
    | .error _ => none

end Sys2Proof
end

