-- ==== Sys2Proof/Machine/State.lean ====
section
/-! DEFINITION. The state of one TF block (10_state.md R20), its reset, and the reasons a step can stop. -/

namespace Sys2Proof.Machine

/-- The link status of R21, `Offline` = 0 and `Online` = 1. -/
inductive Link where
  | offline
  | online
deriving DecidableEq, Repr

/-- The causes of a contract violation (R171), in the order of their codes 1 to 9. -/
inductive Cause where
  | sendOffline
  | sendBusy
  | sendOversize
  | rxOffline
  | rxOversize
  | txdoneIdle
  | linkupOnline
  | linkdownOffline
  | illegalEvent
deriving DecidableEq, Repr

/-- A byte buffer (R50): the offsets that hold a byte, strictly rising. An offset that is not listed
holds no value: those bytes are not state and no rule reads them (R24, R28, R55; log entry 4). -/
abbrev Memory := List Host.Cell

/-- Why a step stops with a fault. A CONTRACT VIOLATION IS NONE OF THESE: it is a next state with its
cause in the `fault` register (R172). -/
inductive Fault where
  /-- Raised by `memRead` and `memWrite`: the access reaches an offset at or above `MaxApduSize`, which
  does not exist (R50). R54: no rule does so. Safe. -/
  | outsideBuffer
  /-- Raised by `memRead`: a byte of the access holds no value. R55: no rule reads one. Safe. -/
  | unwrittenByte
deriving DecidableEq, Repr

/-- Why a step has no meaning. -/
inductive Refusal where
  /-- An arm of `exec` without a meaning (no arm has this answer in this model). Safe. -/
  | notModelled (mnemonic : String)
  /-- Raised by `facade`: the configuration is ill-formed, and a block built with one has no specified
  behaviour (R9, 93_implementation_defined.md U1). Safe. -/
  | illFormedConfig
  /-- Raised by `step`: the transaction is none that R76 describes. Safe. -/
  | undecodable (e : DecodeError)
  /-- Raised by the meanings of `L.TX` and `U.RX`: the byte string is outside the event's format (R77),
  which the block never emits (R160, R161). Safe. -/
  | operandOutsideFormat
deriving DecidableEq, Repr

/-- The complete state of R20, and with it what the host's interface needs: the configuration the step
depends on (R32: a parameter, written by nothing), the inputs still to come and the outputs so far. -/
structure State where
  /-- Link status (R21). -/
  link : Link
  /-- `tx_seq`: the number the next transmitted segment will carry (R22). -/
  txSeq : Seq
  /-- `tx_busy`: a send is in flight (R23). -/
  txBusy : Bool
  /-- `tx_buf`: the bytes of the APDU being sent (R24). -/
  txBuf : Memory
  /-- `tx_len`: how many there are (R24). -/
  txLen : Nat
  /-- `tx_pos`: how many have been handed to the link layer (R25). -/
  txPos : Nat
  /-- `rx_active`: a reassembly is in progress (R26). -/
  rxActive : Bool
  /-- `rx_seq`: the number of the segment accepted last (R27). -/
  rxSeq : Seq
  /-- `rx_buf`: the payload accumulated so far (R28). -/
  rxBuf : Memory
  /-- `rx_len`: how many bytes that is (R28). -/
  rxLen : Nat
  /-- `fault`: 0, or the cause code of the first contract violation (R30). -/
  fault : BitVec 4
  /-- The configuration (R7, R8): fixed at construction, not a register (R32). Log entry 1. -/
  cfg : Config
  /-- The model's own: the input transactions the environment has still to present, the next one
  first (R12, R63). Log entry 2. -/
  inputs : List Transaction
  /-- The model's own: the output events emitted so far, the oldest first (R12, R62). No rule reads
  it. Log entry 3. -/
  outputs : List OutEvent
deriving DecidableEq, Repr

/-- The state after hardware reset (R35, R200), with the spec's default configuration, no input
pending and nothing emitted. -/
def State.reset : State where
  link := .offline
  txSeq := 0#6
  txBusy := false
  txBuf := []
  txLen := 0
  txPos := 0
  rxActive := false
  rxSeq := 0#6
  rxBuf := []
  rxLen := 0
  fault := 0#4
  cfg := Config.default
  inputs := []
  outputs := []

end Sys2Proof.Machine
end

