-- ==== Sys2Proof/Machine/Flags.lean ====
section
/-! DEFINITION. The status flags of 10_state.md R31 as they are read, and the cause codes of 60_exceptions.md R171. -/

namespace Sys2Proof.Machine

/-- The link status bit (R20, R21). -/
def Link.bit : Link → BitVec 1
  | .offline => 0#1
  | .online => 1#1

/-- The code a cause has in the `fault` register (R171). -/
def Cause.code : Cause → BitVec 4
  | .sendOffline => 1#4
  | .sendBusy => 2#4
  | .sendOversize => 3#4
  | .rxOffline => 4#4
  | .rxOversize => 5#4
  | .txdoneIdle => 6#4
  | .linkupOnline => 7#4
  | .linkdownOffline => 8#4
  | .illegalEvent => 9#4

/-- The halted state (R173): `fault != 0`. -/
abbrev State.Halted (s : State) : Prop := s.fault ≠ 0#4

/-- "More chunks remain": `tx_pos < tx_len` (R25). -/
abbrev State.ChunksRemain (s : State) : Prop := s.txPos < s.txLen

end Sys2Proof.Machine
end

