-- ==== Sys2Proof/Machine/Ops.lean ====
section
/-! DEFINITION. The shared operations: the buffers (20_memory.md), emission, the contract violation and the Facade (R150, R172), and the two ways a path becomes idle. -/

namespace Sys2Proof.Machine

/-- The byte at an offset, if it holds one. -/
def Memory.read : Memory → Nat → Option Byte
  | [], _ => none
  | (k, v) :: rest, a => if k = a then some v else Memory.read rest a

/-- One byte written, in the canonical order. -/
def Memory.write : Memory → Nat → Byte → Memory
  | [], a, b => [(a, b)]
  | (k, v) :: rest, a, b =>
    if a < k then (a, b) :: (k, v) :: rest
    else if a = k then (a, b) :: rest
    else (k, v) :: Memory.write rest a b

/-- The canonical form: offsets strictly rising. An unlisted offset holds no value, so no entry can
equal what one reads as. -/
def Memory.wf : Memory → Bool
  | [] => true
  | [_] => true
  | c :: d :: rest => decide (c.1 < d.1) && Memory.wf (d :: rest)

/-- The buffer that holds no byte: logically empty (R24, R28). -/
def Memory.empty : Memory := []

/-- The bytes of `bytes` at `off`, `off + 1`, … -/
def Memory.writeBytes : Memory → Nat → List Byte → Memory
  | m, _, [] => m
  | m, off, b :: bs => Memory.writeBytes (Memory.write m off b) (off + 1) bs

/-- The `n` bytes from `off` on, if each holds a value. -/
def Memory.readBytes : Memory → Nat → Nat → Option (List Byte)
  | _, _, 0 => some []
  | m, off, n + 1 =>
    match Memory.read m off, Memory.readBytes m (off + 1) n with
    | some b, some bs => some (b :: bs)
    | _, _ => none

/-- `MemRead(buf, off, n)` (R52), of a buffer of `MaxApduSize` bytes. -/
def memRead (c : Config) (buf : Memory) (off n : Nat) : Except Fault (List Byte) :=
  if c.maxApduSize < off + n then .error .outsideBuffer
  else
    match Memory.readBytes buf off n with
    | some bytes => .ok bytes
    | none => .error .unwrittenByte

/-- `MemWrite(buf, off, n, v)` (R53), into a buffer of `MaxApduSize` bytes; `n` is the length of `v`. -/
def memWrite (c : Config) (buf : Memory) (off : Nat) (v : List Byte) : Except Fault Memory :=
  if c.maxApduSize < off + v.length then .error .outsideBuffer
  else .ok (Memory.writeBytes buf off v)

/-- `inc6(s) = (s + 1) mod 64` (R15). -/
def inc6 (seq : Seq) : Seq := seq + 1#6

/-- `emit` (R16): one more output event. -/
def State.emit (s : State) (e : OutEvent) : State := { s with outputs := s.outputs ++ [e] }

/-- `raise ContractViolation(cause)` (R172): the cause is latched and nothing else is written. This is
the block's one exception entry. It has no vector and saves nothing (R172), and there is no return from
it short of reset (R174): the operation that gives `fault` its 0 back is `State.reset`. -/
def State.raise (s : State) (cause : Cause) : State := { s with fault := cause.code }

/-- The transmit path becomes idle (R115, R116, R156): `tx_busy`, `tx_len`, `tx_pos` cleared. With
`tx_len = 0` the buffer is logically empty (R24). -/
def State.txToIdle (s : State) : State :=
  { s with txBusy := false, txLen := 0, txPos := 0, txBuf := Memory.empty }

/-- `RX_ABORT` (R137), and the same three writes wherever the receive path becomes idle (R134, R136,
R155). With `rx_len = 0` the buffer is logically empty (R28). -/
def State.rxToIdle (s : State) : State :=
  { s with rxActive := false, rxLen := 0, rxSeq := 0#6, rxBuf := Memory.empty }

/-- The Facade (R150) around the operation of one event: no behaviour without a well-formed
configuration (R9), and none but holding the state while halted (R173). -/
def facade (s : State) (operation : Host.Outcome State Fault Refusal) :
    Host.Outcome State Fault Refusal :=
  if s.cfg.WellFormed then
    if s.Halted then .next s else operation
  else .refused .illFormedConfig

end Sys2Proof.Machine
end

