-- ==== Sys2Proof/Machine/IllegalEvents.lean ====
section
/-! DEFINITION. The ten input codes that name no event (30_encoding.md R78): each raises `CV_ILLEGAL_EVENT` (60_exceptions.md R171). -/

namespace Sys2Proof.Machine

/-- An input transaction with an illegal code (R78, R175 step 2): the contract violation is its effect. -/
def illegalInput (s : State) : Host.Outcome State Fault Refusal :=
  facade s (.next (s.raise .illegalEvent))

/-- Input code 0x5 (R78). -/
def execIllegalIn5 (s : State) : Host.Outcome State Fault Refusal := illegalInput s

/-- Input code 0x6 (R78). -/
def execIllegalIn6 (s : State) : Host.Outcome State Fault Refusal := illegalInput s

/-- Input code 0x7 (R78). -/
def execIllegalIn7 (s : State) : Host.Outcome State Fault Refusal := illegalInput s

/-- Input code 0x8 (R78). -/
def execIllegalIn8 (s : State) : Host.Outcome State Fault Refusal := illegalInput s

/-- Input code 0x9 (R78). -/
def execIllegalIn9 (s : State) : Host.Outcome State Fault Refusal := illegalInput s

/-- Input code 0xA (R78). -/
def execIllegalInA (s : State) : Host.Outcome State Fault Refusal := illegalInput s

/-- Input code 0xB (R78). -/
def execIllegalInB (s : State) : Host.Outcome State Fault Refusal := illegalInput s

/-- Input code 0xD (R78). -/
def execIllegalInD (s : State) : Host.Outcome State Fault Refusal := illegalInput s

/-- Input code 0xE (R78). -/
def execIllegalInE (s : State) : Host.Outcome State Fault Refusal := illegalInput s

/-- Input code 0xF (R78). -/
def execIllegalInF (s : State) : Host.Outcome State Fault Refusal := illegalInput s

end Sys2Proof.Machine
end

