-- ==== Sys2Proof/Machine/Operands.lean ====
section
/-! DEFINITION. What the rules compute from their operands: the chunk of a send (R113), the tests of operand sizes and sequence numbers (R105, R111, R131, R135). -/

namespace Sys2Proof.Machine

/-- `c = min(S, len(a) - pos)` (R113). -/
def chunkLen (c : Config) (len pos : Nat) : Nat := min c.maxSegmentUserDataSize (len - pos)

/-- `a[pos .. pos + c)` (R14). -/
def chunkBytes (a : List Byte) (pos count : Nat) : List Byte := (a.drop pos).take count

/-- `fin = 1 if pos + c = len(a)` (R113). -/
def chunkFin (len pos count : Nat) : Bool := decide (pos + count = len)

/-- The test of R131 on the length of what `L.RX` carries: `len(segment) > 1 + S`. -/
abbrev SegmentTooLong (c : Config) (len : Nat) : Prop := 1 + c.maxSegmentUserDataSize < len

/-- The test of R111: `len(apdu) > MaxApduSize`. -/
abbrev ApduTooLong (c : Config) (apdu : List Byte) : Prop := c.maxApduSize < apdu.length

/-- "accept", the condition of the document's rule 3 (R130, R135): the successor of the last number, and
a message that still fits. -/
abbrev State.Accepts (s : State) (seq : Seq) (payload : List Byte) : Prop :=
  seq = inc6 s.rxSeq ∧ s.rxLen + payload.length ≤ s.cfg.maxApduSize

end Sys2Proof.Machine
end

