-- ==== Sys2Proof/Machine/LinkGate.lean ====
section
/-! DEFINITION. The link-state gate (43_link_gate.md): `L.LINK_UP` and `L.LINK_DOWN`. -/

namespace Sys2Proof.Machine

/-- `L.LINK_UP` (R155): the counter and the receive path to their initial values, then forwarded. The
transmit path is not written (90_conflicts.md C7, C8). -/
def execLLinkUp (s : State) : Host.Outcome State Fault Refusal :=
  facade s <|
    if s.link = .online then .next (s.raise .linkupOnline)
    else
      .next ({ s.rxToIdle with link := .online, txSeq := Config.txSeqAfterLinkUp }.emit .uLinkUp)

/-- `L.LINK_DOWN` (R156): both paths cancelled silently, then forwarded. `tx_seq` is not written. -/
def execLLinkDown (s : State) : Host.Outcome State Fault Refusal :=
  facade s <|
    if s.link = .offline then .next (s.raise .linkdownOffline)
    else .next ({ s.txToIdle.rxToIdle with link := .offline }.emit .uLinkDown)

end Sys2Proof.Machine
end

