-- ==== Sys2Proof/Machine/Outputs.lean ====
section
/-! DEFINITION. The six output events (43_link_gate.md section 5): what one does is to be emitted. -/

namespace Sys2Proof.Machine

/-- The emission of an output event that carries nothing (R16, R76). -/
def emitOutput (s : State) (e : OutEvent) : Host.Outcome State Fault Refusal :=
  facade s (.next (s.emit e))

/-- `L.TX(segment)` (R160): one segment of 1 to `1 + S` bytes handed to the link layer. -/
def execLTx (segment : List Byte) (s : State) : Host.Outcome State Fault Refusal :=
  facade s <|
    if s.cfg.TxSegmentFits segment then .next (s.emit (.lTx segment))
    else .refused .operandOutsideFormat

/-- `U.RX(apdu)` (R161): one APDU of at most `MaxApduSize` bytes delivered to the upper layer. -/
def execURx (apdu : List Byte) (s : State) : Host.Outcome State Fault Refusal :=
  facade s <|
    if s.cfg.ApduFits apdu then .next (s.emit (.uRx apdu))
    else .refused .operandOutsideFormat

/-- `U.TXDONE_OK` (R162). -/
def execUTxdoneOk (s : State) : Host.Outcome State Fault Refusal := emitOutput s .uTxdoneOk

/-- `U.TXDONE_FAIL` (R162). -/
def execUTxdoneFail (s : State) : Host.Outcome State Fault Refusal := emitOutput s .uTxdoneFail

/-- `U.LINK_UP` (R163). -/
def execULinkUp (s : State) : Host.Outcome State Fault Refusal := emitOutput s .uLinkUp

/-- `U.LINK_DOWN` (R164). -/
def execULinkDown (s : State) : Host.Outcome State Fault Refusal := emitOutput s .uLinkDown

end Sys2Proof.Machine
end

