-- ==== Sys2Proof/Machine/Reassembler.lean ====
section
/-! DEFINITION. The receive path (42_reassembler.md): `L.RX` and the receipt of a segment of each header class. -/

namespace Sys2Proof.Machine

/-- The gate of R131 that stands before every segment: the link test, then the length test. -/
def receiveGate (s : State) (len : Nat) (operation : Host.Outcome State Fault Refusal) :
    Host.Outcome State Fault Refusal :=
  if s.link = .offline then .next (s.raise .rxOffline)
  else if SegmentTooLong s.cfg len then .next (s.raise .rxOversize)
  else operation

/-- `SEG_FIRST` past the gate (R133): any partial buffer is discarded, the payload starts a new one. -/
def receiveFirst (seq : Seq) (payload : List Byte) (s : State) : Host.Outcome State Fault Refusal :=
  match memWrite s.cfg Memory.empty 0 payload with
  | .error f => .fault f
  | .ok buf =>
    .next { s with rxBuf := buf, rxLen := payload.length, rxSeq := seq, rxActive := true }

/-- `SEG_SINGLE` past the gate (R134): the payload is the whole APDU. -/
def receiveSingle (payload : List Byte) (s : State) : Host.Outcome State Fault Refusal :=
  .next (s.rxToIdle.emit (.uRx payload))

/-- `SEG_MIDDLE` past the gate (R135): dropped when idle, appended when accepted, else `RX_ABORT`. -/
def receiveMiddle (seq : Seq) (payload : List Byte) (s : State) : Host.Outcome State Fault Refusal :=
  if s.rxActive = false then .next s
  else if s.Accepts seq payload then
    match memWrite s.cfg s.rxBuf s.rxLen payload with
    | .error f => .fault f
    | .ok buf => .next { s with rxBuf := buf, rxLen := s.rxLen + payload.length, rxSeq := seq }
  else .next s.rxToIdle

/-- `SEG_LAST` past the gate (R136): as `SEG_MIDDLE`, and an accepted one delivers the message. -/
def receiveLast (seq : Seq) (payload : List Byte) (s : State) : Host.Outcome State Fault Refusal :=
  if s.rxActive = false then .next s
  else if s.Accepts seq payload then
    match memRead s.cfg s.rxBuf 0 s.rxLen with
    | .error f => .fault f
    | .ok a => .next (s.rxToIdle.emit (.uRx (a ++ payload)))
  else .next s.rxToIdle

/-- The dispatch of R131 on what `DEC_SEG` finds. `none` is `RX_EMPTY` (R132): nothing changes. -/
def receiveDecoded (g : Option Segment) (s : State) : Host.Outcome State Fault Refusal :=
  match g with
  | none => .next s
  | some ⟨true, false, seq, payload⟩ => receiveFirst seq payload s
  | some ⟨true, true, _, payload⟩ => receiveSingle payload s
  | some ⟨false, false, seq, payload⟩ => receiveMiddle seq payload s
  | some ⟨false, true, seq, payload⟩ => receiveLast seq payload s

/-- `L.RX(segment)` (R131). -/
def execLRx (segment : List Byte) (s : State) : Host.Outcome State Fault Refusal :=
  facade s (receiveGate s segment.length (receiveDecoded (decSeg segment) s))

/-- Receipt of a `SEG_MIDDLE` segment: the gate of R131, then R135. -/
def execSegMiddle (seq : Seq) (payload : List Byte) (s : State) :
    Host.Outcome State Fault Refusal :=
  facade s (receiveGate s (1 + payload.length) (receiveMiddle seq payload s))

/-- Receipt of a `SEG_LAST` segment: the gate of R131, then R136. -/
def execSegLast (seq : Seq) (payload : List Byte) (s : State) : Host.Outcome State Fault Refusal :=
  facade s (receiveGate s (1 + payload.length) (receiveLast seq payload s))

/-- Receipt of a `SEG_FIRST` segment: the gate of R131, then R133. -/
def execSegFirst (seq : Seq) (payload : List Byte) (s : State) : Host.Outcome State Fault Refusal :=
  facade s (receiveGate s (1 + payload.length) (receiveFirst seq payload s))

/-- Receipt of a `SEG_SINGLE` segment: the gate of R131, then R134. Its number has no effect (R134). -/
def execSegSingle (_seq : Seq) (payload : List Byte) (s : State) :
    Host.Outcome State Fault Refusal :=
  facade s (receiveGate s (1 + payload.length) (receiveSingle payload s))

end Sys2Proof.Machine
end

