-- ==== Sys2Proof/Machine/Segmenter.lean ====
section
/-! DEFINITION. The transmit path (41_segmenter.md): `U.SEND`, `L.TXDONE_OK`, `L.TXDONE_FAIL` and the operation `EMIT_CHUNK` they share. -/

namespace Sys2Proof.Machine

/-- `EMIT_CHUNK(a, pos, first)` (R113): one segment handed over, the counter post-incremented. -/
def emitChunk (a : List Byte) (pos : Nat) (first : Bool) (s : State) : State :=
  let count := chunkLen s.cfg a.length pos
  let segment := encSeg first (chunkFin a.length pos count) s.txSeq (chunkBytes a pos count)
  { s.emit (.lTx segment) with txSeq := inc6 s.txSeq, txPos := pos + count }

/-- `U.SEND(apdu)` (R111). The old buffer is logically empty (R24), so the copy is all it holds. -/
def execUSend (apdu : List Byte) (s : State) : Host.Outcome State Fault Refusal :=
  facade s <|
    if s.link = .offline then .next (s.raise .sendOffline)
    else if s.txBusy = true then .next (s.raise .sendBusy)
    else if ApduTooLong s.cfg apdu then .next (s.raise .sendOversize)
    else
      match memWrite s.cfg Memory.empty 0 apdu with
      | .error f => .fault f
      | .ok buf =>
        .next (emitChunk apdu 0 true
          { s with txBuf := buf, txLen := apdu.length, txBusy := true })

/-- `L.TXDONE_OK` (R115): the next chunk, or the report of success. -/
def execLTxdoneOk (s : State) : Host.Outcome State Fault Refusal :=
  facade s <|
    if s.txBusy = false then .next (s.raise .txdoneIdle)
    else if s.ChunksRemain then
      match memRead s.cfg s.txBuf 0 s.txLen with
      | .error f => .fault f
      | .ok a => .next (emitChunk a s.txPos false s)
    else .next (s.txToIdle.emit .uTxdoneOk)

/-- `L.TXDONE_FAIL` (R116): the rest of the send is dropped and failure reported. -/
def execLTxdoneFail (s : State) : Host.Outcome State Fault Refusal :=
  facade s <|
    if s.txBusy = false then .next (s.raise .txdoneIdle)
    else .next (s.txToIdle.emit .uTxdoneFail)

end Sys2Proof.Machine
end

