-- ==== Sys2Proof/Machine/Dispatch.lean ====
section
/-! DEFINITION. The dispatch of 43_link_gate.md R150: one arm per row of the opcode table. -/

namespace Sys2Proof.Machine

/-- One row of the opcode table, at a state. -/
def exec (i : Instr) (s : State) : Host.Outcome State Fault Refusal :=
  match i with
  | .lLinkDown => Sys2Proof.Machine.execLLinkDown s
  | .lLinkUp => Sys2Proof.Machine.execLLinkUp s
  | .lTxdoneFail => Sys2Proof.Machine.execLTxdoneFail s
  | .lTxdoneOk => Sys2Proof.Machine.execLTxdoneOk s
  | .lRx segment => Sys2Proof.Machine.execLRx segment s
  | .uSend apdu => Sys2Proof.Machine.execUSend apdu s
  | .illegalIn5 => Sys2Proof.Machine.execIllegalIn5 s
  | .illegalIn6 => Sys2Proof.Machine.execIllegalIn6 s
  | .illegalIn7 => Sys2Proof.Machine.execIllegalIn7 s
  | .illegalIn8 => Sys2Proof.Machine.execIllegalIn8 s
  | .illegalIn9 => Sys2Proof.Machine.execIllegalIn9 s
  | .illegalInA => Sys2Proof.Machine.execIllegalInA s
  | .illegalInB => Sys2Proof.Machine.execIllegalInB s
  | .illegalInD => Sys2Proof.Machine.execIllegalInD s
  | .illegalInE => Sys2Proof.Machine.execIllegalInE s
  | .illegalInF => Sys2Proof.Machine.execIllegalInF s
  | .lTx segment => Sys2Proof.Machine.execLTx segment s
  | .uLinkDown => Sys2Proof.Machine.execULinkDown s
  | .uLinkUp => Sys2Proof.Machine.execULinkUp s
  | .uTxdoneFail => Sys2Proof.Machine.execUTxdoneFail s
  | .uTxdoneOk => Sys2Proof.Machine.execUTxdoneOk s
  | .uRx apdu => Sys2Proof.Machine.execURx apdu s
  | .segMiddle seq payload => Sys2Proof.Machine.execSegMiddle seq payload s
  | .segLast seq payload => Sys2Proof.Machine.execSegLast seq payload s
  | .segFirst seq payload => Sys2Proof.Machine.execSegFirst seq payload s
  | .segSingle seq payload => Sys2Proof.Machine.execSegSingle seq payload s

end Sys2Proof.Machine
end

