-- ==== Sys2Proof/Machine/Fetch.lean ====
section
/-! DEFINITION. How the next input event is taken (00_scope.md R12) and how a table word is placed as that event. -/

namespace Sys2Proof.Machine

/-- Run one input transaction (R150). A transaction that R76 does not describe is refused by name, but
a halted block ignores every input, legal or not (R173). -/
def runTransaction (t : Transaction) (s : State) : Host.Outcome State Fault Refusal :=
  match decode (.evtIn t) with
  | .ok i => exec i s
  | .error e => facade s (.refused (.undecodable e))

/-- The input transaction by which an encoded row reaches the block: an input event as it is, the
bytes of a segment inside an `L.RX` (R131). An output event is no input. -/
def asInput : Encoded → Option Transaction
  | .evtIn t => some t
  | .tpdu bytes => some ⟨0x4#4, bytes⟩
  | .evtOut _ => none

/-- A table word as the next input transaction. -/
def fetchWord (nbits w : Nat) : Option Transaction :=
  match tableWord nbits w with
  | none => none
  | some e => asInput e

end Sys2Proof.Machine
end

