-- ==== Sys2Proof/Machine/Step.lean ====
section
/-! DEFINITION. One step of the block: exactly one input event (00_scope.md R12). -/

namespace Sys2Proof.Machine

/-- One step (R12, R150): the next pending input transaction is consumed and run. While no event
arrives the block holds its state (R185). -/
def step (s : State) : Host.Outcome State Fault Refusal :=
  match s.inputs with
  | [] => .next s
  | t :: rest => runTransaction t { s with inputs := rest }

/-- The state with the instruction of a table word as its very next input transaction, before those
already pending. -/
def State.withFetchWord (s : State) (nbits w : Nat) : State :=
  match fetchWord nbits w with
  | none => s
  | some t => { s with inputs := t :: s.inputs }

end Sys2Proof.Machine
end

