-- ==== Sys2Proof/Safety.lean ====
section
/-! DEFINITION. The terms in which claims are made: the invariant (10_state.md R34), runs of events (R12), the gate table (R157), the two paths (R158), messages as segments (R118, R138) and the neighbours' duties (R203 to R206). -/

namespace Sys2Proof.Machine

/-- The listed offsets of a buffer are exactly those below its length register (R24, R28, R55). -/
abbrev Memory.Exact (m : Memory) (len : Nat) : Prop := m.map Prod.fst = List.range len

/-- R34 item 1. -/
abbrev State.OfflineIsIdle (s : State) : Prop :=
  s.link = .offline → s.txBusy = false ∧ s.rxActive = false

/-- R34 item 2. -/
abbrev State.TxIdleIsClear (s : State) : Prop := s.txBusy = false → s.txLen = 0 ∧ s.txPos = 0

/-- R34 item 3. -/
abbrev State.TxBusyInRange (s : State) : Prop :=
  s.txBusy = true →
    s.txPos ≤ s.txLen ∧ s.txLen ≤ s.cfg.maxApduSize ∧
      min s.cfg.maxSegmentUserDataSize s.txLen ≤ s.txPos

/-- R34 item 4. -/
abbrev State.RxIdleIsClear (s : State) : Prop := s.rxActive = false → s.rxLen = 0 ∧ s.rxSeq = 0#6

/-- R34 item 5. -/
abbrev State.RxInRange (s : State) : Prop := s.rxLen ≤ s.cfg.maxApduSize

/-- The buffers hold what their length registers say and nothing else (R24, R28, R55). -/
abbrev State.BuffersExact (s : State) : Prop :=
  Memory.Exact s.txBuf s.txLen ∧ Memory.Exact s.rxBuf s.rxLen

/-- `fault` holds 0 or one of the nine causes: codes 10 to 15 are never written (R171). -/
abbrev State.FaultIsCause (s : State) : Prop := s.fault.toNat ≤ 9

/-- The invariant: R34 items 1 to 5, the buffers as R55 has them, and the codes of R171. -/
abbrev State.Inv (s : State) : Prop :=
  s.OfflineIsIdle ∧ s.TxIdleIsClear ∧ s.TxBusyInRange ∧ s.RxIdleIsClear ∧ s.RxInRange ∧
    s.BuffersExact ∧ s.FaultIsCause

/-- R57: every chunk of a send starts at a multiple of `S`. -/
abbrev State.ChunkAligned (s : State) : Prop :=
  s.txBusy = true → s.txPos < s.txLen → s.txPos % s.cfg.maxSegmentUserDataSize = 0

/-- A block that takes events: unfaulted, with a well-formed configuration (R9, R173). -/
abbrev State.Running (s : State) : Prop := s.cfg.WellFormed ∧ s.fault = 0#4

/-- The state after reset of a block built with configuration `c` (R35: reset does not choose it). -/
def State.resetWith (c : Config) : State := { State.reset with cfg := c }

/-- A run (R12): the events one after the other, stopping where a step does. -/
def runEvents : List Instr → State → Host.Outcome State Fault Refusal
  | [], s => .next s
  | i :: rest, s =>
    match exec i s with
    | .next t => runEvents rest t
    | .fault f => .fault f
    | .refused r => .refused r

/-- The output events a step or a run from `s` to `t` added. -/
def newOutputs (s t : State) : List OutEvent := t.outputs.drop s.outputs.length

/-- The events of the transmit path (41_segmenter.md). -/
def isTransmit : Instr → Bool
  | .uSend _ | .lTxdoneOk | .lTxdoneFail => true
  | _ => false

/-- The events of the receive path (42_reassembler.md). -/
def isReceive : Instr → Bool
  | .lRx _ | .segMiddle _ _ | .segLast _ _ | .segFirst _ _ | .segSingle _ _ => true
  | _ => false

/-- The output events of the transmit path. -/
def isTransmitOutput : OutEvent → Bool
  | .lTx _ | .uTxdoneOk | .uTxdoneFail => true
  | _ => false

/-- The output event of the receive path. -/
def isReceiveOutput : OutEvent → Bool
  | .uRx _ => true
  | _ => false

/-- The byte string of an `L.TX`. -/
def txSegment : OutEvent → Option (List Byte)
  | .lTx segment => some segment
  | _ => none

/-- Two states agree on the transmit path and what both paths share (R187: `link`, `fault`; and the
configuration). -/
abbrev SameTransmit (s t : State) : Prop :=
  s.link = t.link ∧ s.fault = t.fault ∧ s.cfg = t.cfg ∧ s.txSeq = t.txSeq ∧ s.txBusy = t.txBusy ∧
    s.txBuf = t.txBuf ∧ s.txLen = t.txLen ∧ s.txPos = t.txPos

/-- Two states agree on the receive path and what both paths share. -/
abbrev SameReceive (s t : State) : Prop :=
  s.link = t.link ∧ s.fault = t.fault ∧ s.cfg = t.cfg ∧ s.rxActive = t.rxActive ∧
    s.rxSeq = t.rxSeq ∧ s.rxBuf = t.rxBuf ∧ s.rxLen = t.rxLen

/-- The gate table of R157: when an input event is valid. -/
def validEvent (s : State) : Instr → Prop
  | .uSend apdu => s.link = .online ∧ s.txBusy = false ∧ apdu.length ≤ s.cfg.maxApduSize
  | .lRx segment => s.link = .online ∧ segment.length ≤ 1 + s.cfg.maxSegmentUserDataSize
  | .lTxdoneOk | .lTxdoneFail => s.txBusy = true
  | .lLinkUp => s.link = .offline
  | .lLinkDown => s.link = .online
  | _ => False

/-- `N = max(1, ceil(L / S))` (R118). -/
def segmentCount (c : Config) (len : Nat) : Nat :=
  max 1 ((len + c.maxSegmentUserDataSize - 1) / c.maxSegmentUserDataSize)

/-- Chunk `k` of an APDU: `apdu[k*S .. min((k+1)*S, L))` (R56, R118). -/
def chunkAt (c : Config) (apdu : List Byte) (k : Nat) : List Byte :=
  (apdu.drop (k * c.maxSegmentUserDataSize)).take c.maxSegmentUserDataSize

/-- All the chunks of an APDU, in order. -/
def chunksOf (c : Config) (apdu : List Byte) : List (List Byte) :=
  (List.range (segmentCount c apdu.length)).map (chunkAt c apdu)

/-- The segments of one message with these payloads and the sequence number `q` on the first (R118
item 2, R138): consecutive numbers modulo 64, FIR on the first, FIN on the last. -/
def messageSegments (q : Seq) (payloads : List (List Byte)) : List (List Byte) :=
  payloads.mapIdx fun k p =>
    encSeg (decide (k = 0)) (decide (k + 1 = payloads.length)) (q + BitVec.ofNat 6 k) p

/-- The segments of an accepted `U.SEND(apdu)` in a state with `tx_seq = q` (R118 item 2). -/
def segmentsOf (c : Config) (q : Seq) (apdu : List Byte) : List (List Byte) :=
  messageSegments q (chunksOf c apdu)

/-- What the two neighbours know of the block, from what they did and saw (R203, R205, R206).
`llOutstanding` is the ghost `ll_outstanding` of R33, as a count: that it is never more than 1 is a
statement (R34 item 6), not built in. -/
structure Neighbours where
  /-- The upper layer has seen `U.LINK_UP` and no `U.LINK_DOWN` since (R203 a). -/
  upperUp : Bool
  /-- The upper layer's send has no result yet and no `U.LINK_DOWN` since (R203 b). -/
  upperPending : Bool
  /-- The link layer has reported the link up and not down since (R204 a, R206). -/
  llUp : Bool
  /-- How many `L.TX` have been emitted that no `L.TXDONE_OK`, `L.TXDONE_FAIL` or `L.LINK_DOWN` has
  followed since (R34 item 6): the segments the link layer owes an answer to (R205). -/
  llOutstanding : Nat
deriving DecidableEq, Repr

/-- The neighbours' view after reset (R202). -/
def Neighbours.initial : Neighbours := ⟨false, false, false, 0⟩

/-- The duties of R203, R204 (a) and (b), R205 and R206: may this event be issued now? -/
def Neighbours.mayIssue (v : Neighbours) (c : Config) : Instr → Prop
  | .uSend apdu => v.upperUp = true ∧ v.upperPending = false ∧ apdu.length ≤ c.maxApduSize
  | .lRx segment => v.llUp = true ∧ segment.length ≤ 1 + c.maxSegmentUserDataSize
  | .lTxdoneOk | .lTxdoneFail => 0 < v.llOutstanding
  | .lLinkUp => v.llUp = false
  | .lLinkDown => v.llUp = true
  | _ => False

/-- The checkable duty whose breach raises this cause is broken by this event (R203 to R206, and R203
(d) for the illegal codes of R78). An event can break several at once. -/
def Neighbours.breaches (v : Neighbours) (c : Config) : Cause → Instr → Prop
  | .sendOffline, .uSend _ => v.upperUp = false
  | .sendBusy, .uSend _ => v.upperPending = true
  | .sendOversize, .uSend apdu => c.maxApduSize < apdu.length
  | .rxOffline, .lRx _ => v.llUp = false
  | .rxOversize, .lRx segment => 1 + c.maxSegmentUserDataSize < segment.length
  | .txdoneIdle, .lTxdoneOk => v.llOutstanding = 0
  | .txdoneIdle, .lTxdoneFail => v.llOutstanding = 0
  | .linkupOnline, .lLinkUp => v.llUp = true
  | .linkdownOffline, .lLinkDown => v.llUp = false
  | .illegalEvent, i => i.isIllegal = true
  | _, _ => False

/-- What issuing an event changes in the issuer's own view. -/
def Neighbours.issue (v : Neighbours) : Instr → Neighbours
  | .uSend _ => { v with upperPending := true }
  | .lTxdoneOk | .lTxdoneFail => { v with llOutstanding := 0 }
  | .lLinkUp => { v with llUp := true }
  | .lLinkDown => { v with llUp := false, llOutstanding := 0 }
  | _ => v

/-- What a neighbour learns from an output event. -/
def Neighbours.observe (v : Neighbours) : OutEvent → Neighbours
  | .lTx _ => { v with llOutstanding := v.llOutstanding + 1 }
  | .uTxdoneOk | .uTxdoneFail => { v with upperPending := false }
  | .uLinkUp => { v with upperUp := true }
  | .uLinkDown => { v with upperUp := false, upperPending := false }
  | .uRx _ => v

/-- The neighbours' view after one step. -/
def Neighbours.after (v : Neighbours) (i : Instr) (s t : State) : Neighbours :=
  (newOutputs s t).foldl Neighbours.observe (v.issue i)

/-- A run together with the neighbours' view; `none` where a step stops. -/
def runWatched : List Instr → Neighbours → State → Option (Neighbours × State)
  | [], v, s => some (v, s)
  | i :: rest, v, s =>
    match exec i s with
    | .next t => runWatched rest (v.after i s t) t
    | _ => none

/-- Every event of a run is issued in keeping with the duties. -/
def KeepsDuties : List Instr → Neighbours → State → Prop
  | [], _, _ => True
  | i :: rest, v, s =>
    v.mayIssue s.cfg i ∧ ∀ t, exec i s = .next t → KeepsDuties rest (v.after i s t) t

end Sys2Proof.Machine
end

