-- ==== Sys2Proof/Certificates/Slice0/Obligations.lean ====
section
/-! DEFINITION. The statements for the provers, from the numbered rules of spec/. -/

open Sys2Proof Sys2Proof.Machine

/-- For every row of the opcode table and every operand, decoding its encoding answers that row with
that operand. No bit of an encoding is dropped. The code spaces are those of 30_encoding.md. -/
def Obligations.DecodeOfEncodeIsTheInstruction : Prop :=
  ∀ i : Instr, decode (encode i) = .ok i

/-- If a word of one of the three code spaces decodes to a row that is no illegal input code, encoding
the row gives the word back; if it decodes to an illegal input code, the word has that code,
whatever bytes came with it (the model decodes an illegal code from the code alone, log entry 6). -/
def Obligations.EncodeOfDecodeIsTheWord : Prop :=
  ∀ (e : Encoded) (i : Instr), decode e = .ok i →
    (i.isIllegal = false → encode i = e) ∧
    (i.isIllegal = true → ∃ code data, e = .evtIn ⟨code, data⟩ ∧ encode i = .evtIn ⟨code, []⟩)

/-- R104: DEC_HDR inverts ENC_HDR and ENC_HDR inverts DEC_HDR; DEC_SEG inverts ENC_SEG; ENC_SEG gives
back a byte string of length at least 1 that DEC_SEG has decoded; the length of an encoded segment
is one more than its payload's. -/
def Obligations.SegmentCodecLaws : Prop :=
  (∀ fir fin seq, decHdr (encHdr fir fin seq) = (fir, fin, seq)) ∧
  (∀ h : Byte, encHdr (decHdr h).1 (decHdr h).2.1 (decHdr h).2.2 = h) ∧
  (∀ fir fin seq payload,
    decSeg (encSeg fir fin seq payload) =
      some { fir := fir, fin := fin, seq := seq, payload := payload }) ∧
  (∀ (bytes : List Byte) (g : Segment), 1 ≤ bytes.length → decSeg bytes = some g →
    encSeg g.fir g.fin g.seq g.payload = bytes) ∧
  (∀ fir fin seq payload, (encSeg fir fin seq payload).length = 1 + payload.length)

/-- R100 and R101: ENC_HDR puts FIR in bit 7, FIN in bit 6 and SEQ in bits 5..0, as a number 128*fir +
64*fin + seq; DEC_HDR reads FIR as hdr >= 128, FIN as (hdr mod 128) >= 64 and SEQ as hdr mod 64. -/
def Obligations.HeaderByteIsWeightedSum : Prop :=
  (∀ fir fin (seq : Seq),
    (encHdr fir fin seq).getLsbD 7 = fir ∧ (encHdr fir fin seq).getLsbD 6 = fin ∧
    (encHdr fir fin seq).extractLsb' 0 6 = seq ∧
    (encHdr fir fin seq).toNat = 128 * fir.toNat + 64 * fin.toNat + seq.toNat) ∧
  (∀ h : Byte,
    (decHdr h).1 = decide (128 ≤ h.toNat) ∧ (decHdr h).2.1 = decide (64 ≤ h.toNat % 128) ∧
    (decHdr h).2.2.toNat = h.toNat % 64 ∧
    (decHdr h).1 = h.getLsbD 7 ∧ (decHdr h).2.1 = h.getLsbD 6 ∧
    (decHdr h).2.2 = h.extractLsb' 0 6)

/-- R72 and R74, R75: a segment whose header AND 0xC0 is 0x00, 0x40, 0x80, 0xC0 decodes to SEG_MIDDLE,
SEG_LAST, SEG_FIRST, SEG_SINGLE with SEQ in bits 5..0 and the rest as payload; these four are the
ranges 0x00 to 0x3F, 0x40 to 0x7F, 0x80 to 0xBF, 0xC0 to 0xFF and there is no other case; the byte
string of length 0 is refused. -/
def Obligations.HeaderClassIsTheTwoTopBits : Prop :=
  (∀ (h : Byte) (payload : List Byte),
    (h &&& 0xC0#8 = 0x00#8 →
      h.toNat ≤ 0x3F ∧ decode (.tpdu (h :: payload)) = .ok (.segMiddle (h.extractLsb' 0 6) payload)) ∧
    (h &&& 0xC0#8 = 0x40#8 → 0x40 ≤ h.toNat ∧ h.toNat ≤ 0x7F ∧
      decode (.tpdu (h :: payload)) = .ok (.segLast (h.extractLsb' 0 6) payload)) ∧
    (h &&& 0xC0#8 = 0x80#8 → 0x80 ≤ h.toNat ∧ h.toNat ≤ 0xBF ∧
      decode (.tpdu (h :: payload)) = .ok (.segFirst (h.extractLsb' 0 6) payload)) ∧
    (h &&& 0xC0#8 = 0xC0#8 → 0xC0 ≤ h.toNat ∧
      decode (.tpdu (h :: payload)) = .ok (.segSingle (h.extractLsb' 0 6) payload)) ∧
    (h &&& 0xC0#8 = 0x00#8 ∨ h &&& 0xC0#8 = 0x40#8 ∨ h &&& 0xC0#8 = 0x80#8 ∨
      h &&& 0xC0#8 = 0xC0#8)) ∧
  decode (.tpdu []) = .error .noHeader

/-- Sanity: input codes 0, C and B, output codes 4 and A, and the segments [80 AA BB], [42 EE], [C0]
decode to L.LINK_DOWN, U.SEND, the illegal code B, L.TX, U.TXDONE_FAIL, SEG_FIRST 0 [AA BB],
SEG_LAST 2 [EE], SEG_SINGLE 0 []. -/
def Obligations.WrittenWordsDecode : Prop :=
  decode (.evtIn ⟨0b0000#4, []⟩) = .ok .lLinkDown ∧
  decode (.evtIn ⟨0b1100#4, [0xAA#8]⟩) = .ok (.uSend [0xAA#8]) ∧
  decode (.evtIn ⟨0b1011#4, []⟩) = .ok .illegalInB ∧
  decode (.evtOut ⟨0b0100#4, [0xC0#8]⟩) = .ok (.lTx [0xC0#8]) ∧
  decode (.evtOut ⟨0b1010#4, []⟩) = .ok .uTxdoneFail ∧
  decode (.tpdu [0x80#8, 0xAA#8, 0xBB#8]) = .ok (.segFirst 0#6 [0xAA#8, 0xBB#8]) ∧
  decode (.tpdu [0x42#8, 0xEE#8]) = .ok (.segLast 2#6 [0xEE#8]) ∧
  decode (.tpdu [0xC0#8]) = .ok (.segSingle 0#6 [])

/-- R15: inc6(s) is (s + 1) mod 64, so inc6(63) = 0; adding any natural k is (s + k) mod 64. -/
def Obligations.SequenceIncrementIsModulo64 : Prop :=
  (∀ seq : Seq, (inc6 seq).toNat = (seq.toNat + 1) % 64) ∧ inc6 63#6 = 0#6 ∧
  (∀ (seq : Seq) (k : Nat), (seq + BitVec.ofNat 6 k).toNat = (seq.toNat + k) % 64)

/-- If the next pending input transaction decodes to the row i, a step answers exec of i at the state
with that transaction consumed. The list of pending inputs is the model's own (log entry 2). -/
def Obligations.StepRunsDecodedEvent : Prop :=
  ∀ (s : State) (x : Transaction) (rest : List Transaction) (i : Instr),
    s.inputs = x :: rest → decode (.evtIn x) = .ok i →
      step s = exec i { s with inputs := rest }

/-- With no input transaction pending a step answers the same state (R185: while no event arrives it
simply holds its state). -/
def Obligations.StepHoldsStateWithoutInput : Prop :=
  ∀ s : State, s.inputs = [] → step s = .next s

/-- For any list of rows whose encodings are the pending input transactions, as many steps of the
machine as there are transactions answer exactly the run of those rows, one after the other, with
the queue empty. -/
def Obligations.QueuedRunIsEventRun : Prop :=
  ∀ (es : List Instr) (xs : List Transaction) (s : State),
    xs.map Encoded.evtIn = es.map encode →
      Host.Core.run Sys2Proof.core xs.length { s with inputs := xs } =
        runEvents es { s with inputs := [] }

/-- R78: in a running block, a step on an input transaction with one of the codes 5, 6, 7, 8, 9, A, B,
D, E, F sets fault to 9 and changes nothing else; and every output event has one of the six codes
of R77. That the bytes beside an illegal code make no difference is the model's choice (log entry
6): R78 speaks of the code alone. -/
def Obligations.IllegalInputCodesRaise : Prop :=
  (∀ (s : State) (code : EvCode) (data : List Byte) (rest : List Transaction),
    s.Running → s.inputs = ⟨code, data⟩ :: rest →
    code ∈ [0x5#4, 0x6#4, 0x7#4, 0x8#4, 0x9#4, 0xA#4, 0xB#4, 0xD#4, 0xE#4, 0xF#4] →
      step s = .next { s with inputs := rest, fault := 9#4 }) ∧
  (∀ e : OutEvent, ∃ code data, encode e.instr = .evtOut ⟨code, data⟩ ∧
    code ∈ [0x4#4, 0x8#4, 0x9#4, 0xA#4, 0xB#4, 0xC#4])

/-- In a running block each of the ten illegal input rows answers a next state: the same state with
fault set to 9. That contract violation is the row's own effect. -/
def Obligations.IllegalEventsComplete : Prop :=
  ∀ s : State, s.Running →
    ∀ i ∈ [Instr.illegalIn5, .illegalIn6, .illegalIn7, .illegalIn8, .illegalIn9, .illegalInA,
        .illegalInB, .illegalInD, .illegalInE, .illegalInF],
      exec i s = .next { s with fault := 9#4 }

/-- R111, in a running block: Offline sets fault 1; Online with a send in flight sets fault 2; Online,
idle and longer than MaxApduSize sets fault 3; otherwise tx_buf holds the APDU at offsets 0 to
L-1, tx_len = L, tx_busy = 1, tx_pos = min(S, L), tx_seq advances by 1, and exactly one L.TX is
emitted with FIR = 1, FIN = 1 iff the chunk ends the APDU, the old tx_seq, and the first min(S, L)
bytes. Nothing else changes (the bytes of tx_buf from L on are not state). -/
def Obligations.SendTakesApduAndEmitsFirstSegment : Prop :=
  ∀ (apdu : List Byte) (s : State), s.Running →
    (s.link = .offline → exec (.uSend apdu) s = .next { s with fault := 1#4 }) ∧
    (s.link = .online → s.txBusy = true →
      exec (.uSend apdu) s = .next { s with fault := 2#4 }) ∧
    (s.link = .online → s.txBusy = false → s.cfg.maxApduSize < apdu.length →
      exec (.uSend apdu) s = .next { s with fault := 3#4 }) ∧
    (s.link = .online → s.txBusy = false → apdu.length ≤ s.cfg.maxApduSize →
      ∃ t, exec (.uSend apdu) s = .next t ∧
        (∀ a, a < apdu.length → Memory.read t.txBuf a = apdu[a]?) ∧
        t = { s with
          txBuf := t.txBuf
          txLen := apdu.length
          txBusy := true
          txPos := min s.cfg.maxSegmentUserDataSize apdu.length
          txSeq := inc6 s.txSeq
          outputs := s.outputs ++ [.lTx (encSeg true
            (decide (min s.cfg.maxSegmentUserDataSize apdu.length = apdu.length)) s.txSeq
            (apdu.take (min s.cfg.maxSegmentUserDataSize apdu.length)))] })

/-- R115, in a running block: with no send in flight fault becomes 6. With tx_pos < tx_len and tx_buf
holding the bytes a at offsets 0 to tx_len-1, the next chunk of min(S, tx_len - tx_pos) bytes from
tx_pos is emitted with FIR = 0, FIN = 1 iff it ends the APDU, and the old tx_seq; tx_pos and
tx_seq advance; nothing else changes. With tx_pos = tx_len, U.TXDONE_OK is emitted and tx_busy,
tx_len, tx_pos become 0; nothing else changes (tx_buf is then logically empty). -/
def Obligations.TxdoneOkSendsNextOrReports : Prop :=
  ∀ s : State, s.Running →
    (s.txBusy = false → exec .lTxdoneOk s = .next { s with fault := 6#4 }) ∧
    (∀ a : List Byte, s.txBusy = true → s.txPos < s.txLen → s.txLen ≤ s.cfg.maxApduSize →
      a.length = s.txLen → (∀ k, k < s.txLen → Memory.read s.txBuf k = a[k]?) →
      exec .lTxdoneOk s = .next { s with
        txSeq := inc6 s.txSeq
        txPos := s.txPos + min s.cfg.maxSegmentUserDataSize (s.txLen - s.txPos)
        outputs := s.outputs ++ [.lTx (encSeg false
          (decide (s.txPos + min s.cfg.maxSegmentUserDataSize (s.txLen - s.txPos) = s.txLen))
          s.txSeq
          ((a.drop s.txPos).take (min s.cfg.maxSegmentUserDataSize (s.txLen - s.txPos))))] }) ∧
    (s.txBusy = true → s.txPos = s.txLen →
      ∃ t, exec .lTxdoneOk s = .next t ∧
        t = { s with txBusy := false, txLen := 0, txPos := 0, txBuf := t.txBuf,
                     outputs := s.outputs ++ [.uTxdoneOk] })

/-- R116, in a running block: with no send in flight fault becomes 6; otherwise U.TXDONE_FAIL is
emitted, tx_busy, tx_len and tx_pos become 0, and nothing else changes: neither tx_seq, nor link,
nor the receive path (tx_buf is then logically empty). -/
def Obligations.TxdoneFailEndsSend : Prop :=
  ∀ s : State, s.Running →
    (s.txBusy = false → exec .lTxdoneFail s = .next { s with fault := 6#4 }) ∧
    (s.txBusy = true →
      ∃ t, exec .lTxdoneFail s = .next t ∧
        t = { s with txBusy := false, txLen := 0, txPos := 0, txBuf := t.txBuf,
                     outputs := s.outputs ++ [.uTxdoneFail] })

/-- For a well-formed configuration: there are N = max(1, ceil(L/S)) chunks, every one but the last
has exactly S bytes, the last has L - (N-1)*S, which is 0 only for L = 0 and never more than S,
and the chunks in order join to the APDU. -/
def Obligations.ChunksPartitionTheApdu : Prop :=
  ∀ (c : Config) (apdu : List Byte), c.WellFormed →
    (chunksOf c apdu).length = segmentCount c apdu.length ∧
    (∀ k, k + 1 < segmentCount c apdu.length →
      (chunkAt c apdu k).length = c.maxSegmentUserDataSize) ∧
    (chunkAt c apdu (segmentCount c apdu.length - 1)).length =
      apdu.length - (segmentCount c apdu.length - 1) * c.maxSegmentUserDataSize ∧
    (segmentCount c apdu.length - 1) * c.maxSegmentUserDataSize ≤ apdu.length ∧
    apdu.length - (segmentCount c apdu.length - 1) * c.maxSegmentUserDataSize ≤
      c.maxSegmentUserDataSize ∧
    (apdu.length - (segmentCount c apdu.length - 1) * c.maxSegmentUserDataSize = 0 →
      apdu = []) ∧
    (chunksOf c apdu).flatten = apdu

/-- From a running, Online, transmit-idle state that satisfies the invariant: after U.SEND of at most
MaxApduSize bytes and any events of which j <= N are L.TXDONE_OK and the others are L.RX of at
most 1 + S bytes, the transmit outputs so far are the first min(j + 1, N) segments of the closed
form, with U.TXDONE_OK after them exactly when j = N; tx_seq = s0 + min(j + 1, N) mod 64; the send
is in flight exactly when j < N; fault is 0. -/
def Obligations.SendEmitsItsSegmentsInOrder : Prop :=
  ∀ (apdu : List Byte) (s : State) (es : List Instr), s.Running → s.Inv → s.link = .online →
    s.txBusy = false → apdu.length ≤ s.cfg.maxApduSize →
    (∀ e ∈ es, e = .lTxdoneOk ∨
      ∃ segment, e = .lRx segment ∧ segment.length ≤ 1 + s.cfg.maxSegmentUserDataSize) →
    es.count .lTxdoneOk ≤ segmentCount s.cfg apdu.length →
      ∃ t, runEvents (.uSend apdu :: es) s = .next t ∧ t.fault = 0#4 ∧
        t.outputs.filter isTransmitOutput =
          s.outputs.filter isTransmitOutput ++
            ((segmentsOf s.cfg s.txSeq apdu).take (es.count .lTxdoneOk + 1)).map OutEvent.lTx ++
            (if es.count .lTxdoneOk = segmentCount s.cfg apdu.length then [.uTxdoneOk] else []) ∧
        t.txSeq = s.txSeq +
          BitVec.ofNat 6 (min (es.count .lTxdoneOk + 1) (segmentCount s.cfg apdu.length)) ∧
        t.txBusy = decide (es.count .lTxdoneOk < segmentCount s.cfg apdu.length) ∧
        (es.count .lTxdoneOk = segmentCount s.cfg apdu.length → t.txLen = 0 ∧ t.txPos = 0)

/-- As in the closed form of a send, but after j < N answers L.TXDONE_OK (receive events interleaved)
the next answer is L.TXDONE_FAIL: exactly j + 1 segments have been emitted, then U.TXDONE_FAIL;
tx_seq = s0 + j + 1 mod 64 and the transmit path is idle. -/
def Obligations.FailedSendStopsAfterItsSegments : Prop :=
  ∀ (apdu : List Byte) (s : State) (es : List Instr), s.Running → s.Inv → s.link = .online →
    s.txBusy = false → apdu.length ≤ s.cfg.maxApduSize →
    (∀ e ∈ es, e = .lTxdoneOk ∨
      ∃ segment, e = .lRx segment ∧ segment.length ≤ 1 + s.cfg.maxSegmentUserDataSize) →
    es.count .lTxdoneOk < segmentCount s.cfg apdu.length →
      ∃ t, runEvents (.uSend apdu :: es ++ [.lTxdoneFail]) s = .next t ∧ t.fault = 0#4 ∧
        t.outputs.filter isTransmitOutput =
          s.outputs.filter isTransmitOutput ++
            ((segmentsOf s.cfg s.txSeq apdu).take (es.count .lTxdoneOk + 1)).map OutEvent.lTx ++
            [.uTxdoneFail] ∧
        ((segmentsOf s.cfg s.txSeq apdu).take (es.count .lTxdoneOk + 1)).length =
          es.count .lTxdoneOk + 1 ∧
        t.txSeq = s.txSeq + BitVec.ofNat 6 (es.count .lTxdoneOk + 1) ∧
        t.txBusy = false ∧ t.txLen = 0 ∧ t.txPos = 0

/-- As in the closed form of a send, but after j < N answers L.TXDONE_OK (receive events interleaved)
comes L.LINK_DOWN: exactly the first j + 1 segments have been emitted and the one output of that
last step is U.LINK_DOWN; and whatever input events other than a new U.SEND follow, no transmit
output is ever added. -/
def Obligations.LinkDownAbortsSendSilently : Prop :=
  ∀ (apdu : List Byte) (s : State) (es : List Instr), s.Running → s.Inv → s.link = .online →
    s.txBusy = false → apdu.length ≤ s.cfg.maxApduSize →
    (∀ e ∈ es, e = .lTxdoneOk ∨
      ∃ segment, e = .lRx segment ∧ segment.length ≤ 1 + s.cfg.maxSegmentUserDataSize) →
    es.count .lTxdoneOk < segmentCount s.cfg apdu.length →
      ∃ u t, runEvents (.uSend apdu :: es) s = .next u ∧ exec .lLinkDown u = .next t ∧
        t.outputs = u.outputs ++ [.uLinkDown] ∧ t.fault = 0#4 ∧
        u.outputs.filter isTransmitOutput =
          s.outputs.filter isTransmitOutput ++
            ((segmentsOf s.cfg s.txSeq apdu).take (es.count .lTxdoneOk + 1)).map OutEvent.lTx ∧
        ∀ (ws : List Instr) (w : State),
          (∀ e ∈ ws, e.isInput = true ∧ ∀ b, e ≠ .uSend b) → runEvents ws t = .next w →
            w.outputs.filter isTransmitOutput = t.outputs.filter isTransmitOutput

/-- R119: (1) a run of input events, from a state with a send in flight, that adds an L.TX contains an
L.TXDONE_OK, or an L.TXDONE_FAIL or L.LINK_DOWN with a U.SEND after it; (2) a step that adds an
L.TX, from a state that satisfies the invariant, is a U.SEND that found no send in flight or an
L.TXDONE_OK that found one, the link is Online and stays so, a send is in flight after it, and it
adds one L.TX only, of 1 to 1 + S bytes. -/
def Obligations.FlowGateBetweenSegments : Prop :=
  (∀ (es : List Instr) (s t : State), (∀ e ∈ es, e.isInput = true) → s.txBusy = true →
    runEvents es s = .next t → (∃ segment, .lTx segment ∈ newOutputs s t) →
      .lTxdoneOk ∈ es ∨
        ∃ before mid after e apdu, es = before ++ e :: mid ++ .uSend apdu :: after ∧
          (e = .lTxdoneFail ∨ e = .lLinkDown)) ∧
  (∀ (i : Instr) (s t : State) (segment : List Byte), i.isInput = true → s.Inv →
    exec i s = .next t → .lTx segment ∈ newOutputs s t →
      (((∃ apdu, i = .uSend apdu) ∧ s.txBusy = false) ∨ (i = .lTxdoneOk ∧ s.txBusy = true)) ∧
      s.link = .online ∧ t.link = .online ∧ t.txBusy = true ∧
      newOutputs s t = [.lTx segment] ∧
      1 ≤ segment.length ∧ segment.length ≤ 1 + s.cfg.maxSegmentUserDataSize)

/-- R57: for every state that satisfies the invariant and in which tx_pos is a multiple of S whenever
chunks remain, the same holds after every row of the table. -/
def Obligations.ChunksStartAtMultiplesOfS : Prop :=
  ∀ (i : Instr) (s t : State), s.Inv → s.ChunkAligned → exec i s = .next t → t.ChunkAligned

/-- R131, in a running block: Offline sets fault 4, whatever the bytes; Online and longer than 1 + S
sets fault 5; otherwise the empty string changes nothing and a string with a header does what the
row of its class does (FIR, FIN in bits 7, 6: 10 SEG_FIRST, 11 SEG_SINGLE, 00 SEG_MIDDLE, 01
SEG_LAST) with the number in bits 5..0 and the rest as payload. -/
def Obligations.ReceiveGateAndDispatch : Prop :=
  ∀ (segment : List Byte) (s : State), s.Running →
    (s.link = .offline → exec (.lRx segment) s = .next { s with fault := 4#4 }) ∧
    (s.link = .online → 1 + s.cfg.maxSegmentUserDataSize < segment.length →
      exec (.lRx segment) s = .next { s with fault := 5#4 }) ∧
    (s.link = .online → segment.length ≤ 1 + s.cfg.maxSegmentUserDataSize →
      (segment = [] → exec (.lRx segment) s = .next s) ∧
      ∀ hdr payload, segment = hdr :: payload →
        (hdr.getLsbD 7 = true → hdr.getLsbD 6 = false →
          exec (.lRx segment) s = exec (.segFirst (hdr.extractLsb' 0 6) payload) s) ∧
        (hdr.getLsbD 7 = true → hdr.getLsbD 6 = true →
          exec (.lRx segment) s = exec (.segSingle (hdr.extractLsb' 0 6) payload) s) ∧
        (hdr.getLsbD 7 = false → hdr.getLsbD 6 = false →
          exec (.lRx segment) s = exec (.segMiddle (hdr.extractLsb' 0 6) payload) s) ∧
        (hdr.getLsbD 7 = false → hdr.getLsbD 6 = true →
          exec (.lRx segment) s = exec (.segLast (hdr.extractLsb' 0 6) payload) s))

/-- R132: in a running, Online block, L.RX of the empty byte string answers the very same state, a
reassembly in progress included. -/
def Obligations.EmptyReceiveChangesNothing : Prop :=
  ∀ s : State, s.Running → s.link = .online → exec (.lRx []) s = .next s

/-- R133: in a running, Online block, a segment with FIR = 1, FIN = 0 and at most S payload bytes
leaves rx_buf holding the payload at offsets 0 to n-1, rx_len = n, rx_seq = seq, rx_active = 1,
emits nothing and changes nothing else (the bytes of rx_buf from n on are not state); as a row of
the table and as the L.RX of the encoded segment alike. -/
def Obligations.FirstSegmentStartsReassembly : Prop :=
  ∀ (seq : Seq) (payload : List Byte) (s : State), s.Running → s.link = .online →
    payload.length ≤ s.cfg.maxSegmentUserDataSize →
      ∃ t, exec (.segFirst seq payload) s = .next t ∧
        exec (.lRx (encSeg true false seq payload)) s = .next t ∧
        (∀ a, a < payload.length → Memory.read t.rxBuf a = payload[a]?) ∧
        t = { s with rxBuf := t.rxBuf, rxLen := payload.length, rxSeq := seq, rxActive := true }

/-- R134: in a running, Online block, a segment with FIR = 1, FIN = 1 and at most S payload bytes
emits exactly U.RX(payload), sets rx_active, rx_len and rx_seq to 0 and changes nothing else,
whatever its number (rx_buf is then logically empty); as a row and as the L.RX of the encoded
segment alike. -/
def Obligations.SingleSegmentDelivers : Prop :=
  ∀ (seq : Seq) (payload : List Byte) (s : State), s.Running → s.link = .online →
    payload.length ≤ s.cfg.maxSegmentUserDataSize →
      ∃ t, exec (.segSingle seq payload) s = .next t ∧
        exec (.lRx (encSeg true true seq payload)) s = .next t ∧
        t = { s with rxActive := false, rxLen := 0, rxSeq := 0#6, rxBuf := t.rxBuf,
                     outputs := s.outputs ++ [.uRx payload] }

/-- R135, in a running, Online block with at most S payload bytes. Idle: nothing changes. Assembling,
seq = rx_seq + 1 mod 64 and rx_len + n <= MaxApduSize: the payload is stored at offsets rx_len to
rx_len + n - 1 of rx_buf and every other byte reads as before, rx_len grows by n, rx_seq = seq,
nothing else changes. Assembling otherwise: rx_active, rx_len, rx_seq become 0 and nothing else
changes (rx_buf is then logically empty). Nothing is emitted. As a row and as the L.RX of the
encoded segment alike. -/
def Obligations.MiddleSegmentAppendsOrDrops : Prop :=
  ∀ (seq : Seq) (payload : List Byte) (s : State), s.Running → s.link = .online →
    payload.length ≤ s.cfg.maxSegmentUserDataSize →
      exec (.lRx (encSeg false false seq payload)) s = exec (.segMiddle seq payload) s ∧
      (s.rxActive = false → exec (.segMiddle seq payload) s = .next s) ∧
      (s.rxActive = true → seq = inc6 s.rxSeq → s.rxLen + payload.length ≤ s.cfg.maxApduSize →
        ∃ t, exec (.segMiddle seq payload) s = .next t ∧
          (∀ a, Memory.read t.rxBuf a =
            if s.rxLen ≤ a ∧ a < s.rxLen + payload.length then payload[a - s.rxLen]?
            else Memory.read s.rxBuf a) ∧
          t = { s with rxBuf := t.rxBuf, rxLen := s.rxLen + payload.length, rxSeq := seq }) ∧
      (s.rxActive = true →
        ¬ (seq = inc6 s.rxSeq ∧ s.rxLen + payload.length ≤ s.cfg.maxApduSize) →
        ∃ t, exec (.segMiddle seq payload) s = .next t ∧
          t = { s with rxActive := false, rxLen := 0, rxSeq := 0#6, rxBuf := t.rxBuf })

/-- R136, in a running, Online block with at most S payload bytes. Idle: nothing changes. Assembling,
accepted, and rx_buf holding the bytes a at offsets 0 to rx_len - 1: exactly U.RX(a ++ payload) is
emitted, rx_active, rx_len, rx_seq become 0 and nothing else changes. Assembling otherwise: those
three become 0, nothing is emitted, nothing else changes (rx_buf is logically empty in both). As a
row and as the L.RX of the encoded segment alike. -/
def Obligations.LastSegmentDeliversOrDrops : Prop :=
  ∀ (seq : Seq) (payload : List Byte) (s : State), s.Running → s.link = .online →
    payload.length ≤ s.cfg.maxSegmentUserDataSize →
      exec (.lRx (encSeg false true seq payload)) s = exec (.segLast seq payload) s ∧
      (s.rxActive = false → exec (.segLast seq payload) s = .next s) ∧
      (∀ a : List Byte, s.rxActive = true → seq = inc6 s.rxSeq →
        s.rxLen + payload.length ≤ s.cfg.maxApduSize →
        a.length = s.rxLen → (∀ k, k < s.rxLen → Memory.read s.rxBuf k = a[k]?) →
        ∃ t, exec (.segLast seq payload) s = .next t ∧
          t = { s with rxActive := false, rxLen := 0, rxSeq := 0#6, rxBuf := t.rxBuf,
                       outputs := s.outputs ++ [.uRx (a ++ payload)] }) ∧
      (s.rxActive = true →
        ¬ (seq = inc6 s.rxSeq ∧ s.rxLen + payload.length ≤ s.cfg.maxApduSize) →
        ∃ t, exec (.segLast seq payload) s = .next t ∧
          t = { s with rxActive := false, rxLen := 0, rxSeq := 0#6, rxBuf := t.rxBuf })

/-- In a running block each of the four class rows sets fault 4 while Offline, and fault 5 when Online
with more than S payload bytes, and changes nothing else. That a class row is the receipt of such
a segment, gate included, is the model's reading (log entry 7). -/
def Obligations.OverlongClassSegmentsRaise : Prop :=
  ∀ (seq : Seq) (payload : List Byte) (s : State), s.Running →
    ∀ i ∈ [Instr.segFirst seq payload, .segSingle seq payload, .segMiddle seq payload,
        .segLast seq payload],
      (s.link = .offline → exec i s = .next { s with fault := 4#4 }) ∧
      (s.link = .online → s.cfg.maxSegmentUserDataSize < payload.length →
        exec i s = .next { s with fault := 5#4 })

/-- The model's choice of R55's exact representation (log entry 4): after an accepted U.SEND no byte
of tx_buf is held at or above its length, after a SEG_FIRST none of rx_buf; every row that ends a
send leaves tx_buf empty and every row that ends a reassembly leaves rx_buf empty, as L.LINK_UP
and SEG_SINGLE do in any case. -/
def Obligations.EmptiedBuffersHoldNoByte : Prop :=
  ∀ (s t : State) (i : Instr), s.Running → exec i s = .next t →
    (∀ apdu, i = .uSend apdu → s.txBusy = false → t.txBusy = true →
      ∀ a, apdu.length ≤ a → Memory.read t.txBuf a = none) ∧
    (∀ seq payload, i = .segFirst seq payload → t.fault = 0#4 →
      ∀ a, payload.length ≤ a → Memory.read t.rxBuf a = none) ∧
    (s.txBusy = true → t.txBusy = false → t.txBuf = Memory.empty) ∧
    (s.rxActive = true → t.rxActive = false → t.rxBuf = Memory.empty) ∧
    ((i = .lLinkUp ∨ ∃ seq payload, i = .segSingle seq payload) → t.fault = 0#4 →
      t.rxBuf = Memory.empty)

/-- R138: from any running, Online state that satisfies the invariant, receive the segments of one
message with number q on the first, payloads p_0 to p_m of at most S bytes each and at most
MaxApduSize together, with transmit-path events interleaved freely: if no contract violation
happens, nothing is delivered before the last segment, and its step delivers exactly U.RX(p_0 ++
... ++ p_m) and leaves the receive path idle. -/
def Obligations.ReassemblyDeliversTheMessage : Prop :=
  ∀ (q : Seq) (payloads : List (List Byte)) (es : List Instr) (s u : State), s.Running → s.Inv →
    s.link = .online → payloads ≠ [] →
    (∀ p ∈ payloads, p.length ≤ s.cfg.maxSegmentUserDataSize) →
    payloads.flatten.length ≤ s.cfg.maxApduSize →
    (∀ e ∈ es, isTransmit e = true ∨ ∃ segment, e = .lRx segment) →
    es.filter isReceive = (messageSegments q payloads).dropLast.map Instr.lRx →
    runEvents es s = .next u → u.fault = 0#4 →
      u.outputs.filter isReceiveOutput = s.outputs.filter isReceiveOutput ∧
      ∃ last t, (messageSegments q payloads).getLast? = some last ∧
        exec (.lRx last) u = .next t ∧
        t.outputs = u.outputs ++ [.uRx payloads.flatten] ∧
        t.rxActive = false ∧ t.rxLen = 0 ∧ t.rxSeq = 0#6 ∧ t.fault = 0#4

/-- R138: from any running, Online state that satisfies the invariant, receive the first k >= 1
segments of a message (payloads p_0 to p_(k-1), number q on the first, none with FIN, all
accepted), then a non-FIR segment that is not number q + k or would make the message longer than
MaxApduSize: nothing is delivered, the receive path is idle, and any further non-FIR segments of
at most S payload bytes change nothing at all. -/
def Obligations.BrokenReassemblyIsDroppedSilently : Prop :=
  ∀ (q seq : Seq) (fin : Bool) (payload : List Byte) (payloads : List (List Byte))
    (rest : List (Bool × Seq × List Byte)) (s : State), s.Running → s.Inv → s.link = .online →
    payloads ≠ [] → (∀ p ∈ payloads, p.length ≤ s.cfg.maxSegmentUserDataSize) →
    payloads.flatten.length ≤ s.cfg.maxApduSize →
    payload.length ≤ s.cfg.maxSegmentUserDataSize →
    (∀ r ∈ rest, r.2.2.length ≤ s.cfg.maxSegmentUserDataSize) →
    (seq ≠ q + BitVec.ofNat 6 payloads.length ∨
      s.cfg.maxApduSize < payloads.flatten.length + payload.length) →
      ∃ u t,
        runEvents (payloads.mapIdx fun k p =>
          Instr.lRx (encSeg (decide (k = 0)) false (q + BitVec.ofNat 6 k) p)) s = .next u ∧
        u.rxActive = true ∧ u.outputs = s.outputs ∧
        exec (.lRx (encSeg false fin seq payload)) u = .next t ∧
        t.rxActive = false ∧ t.rxLen = 0 ∧ t.rxSeq = 0#6 ∧ t.outputs = s.outputs ∧
        t.fault = 0#4 ∧
        runEvents (rest.map fun r => Instr.lRx (encSeg false r.1 r.2.1 r.2.2)) t = .next t

/-- R139: blocks A and B with one configuration, both running, Online and satisfying the invariant, A
transmit-idle, B's receive path in any state; the segments A emits for an accepted U.SEND(apdu)
answered by N times L.TXDONE_OK, given to B as L.RX in order: B emits nothing before the last one
and exactly one U.RX, of apdu itself, with it, and is then receive-idle. -/
def Obligations.SegmentingThenReassemblingIsIdentity : Prop :=
  ∀ (apdu : List Byte) (a b : State), a.Running → b.Running → a.Inv → b.Inv → a.cfg = b.cfg →
    a.link = .online → b.link = .online → a.txBusy = false → apdu.length ≤ a.cfg.maxApduSize →
      ∃ ta,
        runEvents (.uSend apdu ::
          List.replicate (segmentCount a.cfg apdu.length) .lTxdoneOk) a = .next ta ∧
        ∃ m tb,
          runEvents (((newOutputs a ta).filterMap txSegment).dropLast.map Instr.lRx) b = .next m ∧
          newOutputs b m = [] ∧
          runEvents (((newOutputs a ta).filterMap txSegment).map Instr.lRx) b = .next tb ∧
          newOutputs b tb = [.uRx apdu] ∧ tb.rxActive = false

/-- R155, in a running block: Online sets fault 7; Offline: link = Online, tx_seq = 0, rx_active,
rx_len, rx_seq = 0, exactly U.LINK_UP is emitted, nothing else changes: tx_busy, tx_len, tx_pos
and tx_buf are not written (rx_buf is logically empty). -/
def Obligations.LinkUpInitialisesAndForwards : Prop :=
  ∀ s : State, s.Running →
    (s.link = .online → exec .lLinkUp s = .next { s with fault := 7#4 }) ∧
    (s.link = .offline →
      ∃ t, exec .lLinkUp s = .next t ∧
        t = { s with link := .online, txSeq := 0#6, rxActive := false, rxLen := 0, rxSeq := 0#6,
                     rxBuf := t.rxBuf, outputs := s.outputs ++ [.uLinkUp] })

/-- R156, in a running block: Offline sets fault 8; Online: link = Offline, tx_busy, tx_len, tx_pos,
rx_active, rx_len, rx_seq = 0, exactly U.LINK_DOWN is emitted and no result, tx_seq and all else
stay (both buffers are logically empty). -/
def Obligations.LinkDownCancelsAndForwards : Prop :=
  ∀ s : State, s.Running →
    (s.link = .offline → exec .lLinkDown s = .next { s with fault := 8#4 }) ∧
    (s.link = .online →
      ∃ t, exec .lLinkDown s = .next t ∧
        t = { s with link := .offline, txBusy := false, txLen := 0, txPos := 0, txBuf := t.txBuf,
                     rxActive := false, rxLen := 0, rxSeq := 0#6, rxBuf := t.rxBuf,
                     outputs := s.outputs ++ [.uLinkDown] })

/-- R157: for every input row and every running state that satisfies the invariant, the row answers a
next state, and fault is still 0 there exactly when the table calls the event valid. -/
def Obligations.GateTableDecidesFaults : Prop :=
  ∀ (i : Instr) (s : State), i.isInput = true → s.Running → s.Inv →
    ∃ t, exec i s = .next t ∧ (t.fault = 0#4 ↔ validEvent s i)

/-- R152: an input row at any state adds no output when the block was halted or the step raises a
contract violation; else U.SEND adds one L.TX, L.TXDONE_OK one L.TX or one U.TXDONE_OK,
L.TXDONE_FAIL one U.TXDONE_FAIL, L.RX one U.RX or nothing, L.LINK_UP one U.LINK_UP, L.LINK_DOWN
one U.LINK_DOWN. What was emitted before stays. -/
def Obligations.OneOutputPerStep : Prop :=
  ∀ (i : Instr) (s t : State), i.isInput = true → exec i s = .next t →
    ∃ out, t.outputs = s.outputs ++ out ∧ out.length ≤ 1 ∧
      (s.fault ≠ 0#4 ∨ t.fault ≠ 0#4 → out = []) ∧
      (s.fault = 0#4 → t.fault = 0#4 →
        (∀ apdu, i = .uSend apdu → ∃ segment, out = [.lTx segment]) ∧
        (i = .lTxdoneOk → (∃ segment, out = [.lTx segment]) ∨ out = [.uTxdoneOk]) ∧
        (i = .lTxdoneFail → out = [.uTxdoneFail]) ∧
        (∀ segment, i = .lRx segment → (∃ apdu, out = [.uRx apdu]) ∨ out = []) ∧
        (i = .lLinkUp → out = [.uLinkUp]) ∧ (i = .lLinkDown → out = [.uLinkDown]))

/-- In a running block, L.TX of 1 to 1 + S bytes, U.RX of at most MaxApduSize bytes, U.TXDONE_OK,
U.TXDONE_FAIL, U.LINK_UP and U.LINK_DOWN each answer the same state with that one output event
added. An output row on its own is the emission the spec describes (log entry 8). -/
def Obligations.OutputRowsEmit : Prop :=
  ∀ (s : State), s.Running →
    (∀ segment, 1 ≤ segment.length → segment.length ≤ 1 + s.cfg.maxSegmentUserDataSize →
      exec (.lTx segment) s = .next { s with outputs := s.outputs ++ [.lTx segment] }) ∧
    (∀ apdu, apdu.length ≤ s.cfg.maxApduSize →
      exec (.uRx apdu) s = .next { s with outputs := s.outputs ++ [.uRx apdu] }) ∧
    exec .uTxdoneOk s = .next { s with outputs := s.outputs ++ [.uTxdoneOk] } ∧
    exec .uTxdoneFail s = .next { s with outputs := s.outputs ++ [.uTxdoneFail] } ∧
    exec .uLinkUp s = .next { s with outputs := s.outputs ++ [.uLinkUp] } ∧
    exec .uLinkDown s = .next { s with outputs := s.outputs ++ [.uLinkDown] }

/-- For every input row at a state that satisfies the invariant: an L.TX comes only from a U.SEND that
finds no send in flight or an L.TXDONE_OK that finds one, is an encoded segment with the number
tx_seq, FIR exactly for U.SEND, of 1 to 1 + S bytes, and leaves the block Online with a send in
flight; a U.RX comes only from L.RX and has at most MaxApduSize bytes, and the receive path is
idle after it; a U.TXDONE_OK comes only from L.TXDONE_OK and a U.TXDONE_FAIL only from
L.TXDONE_FAIL, each with a send in flight before and none after; U.LINK_UP comes only from
L.LINK_UP and finds the block Online with tx_seq 0; U.LINK_DOWN comes only from L.LINK_DOWN and
finds it Offline with both paths idle. -/
def Obligations.OutputsComeFromTheirEvents : Prop :=
  ∀ (i : Instr) (s t : State) (e : OutEvent), i.isInput = true → s.Inv → exec i s = .next t →
    e ∈ newOutputs s t →
      (∀ segment, e = .lTx segment →
        (((∃ apdu, i = .uSend apdu) ∧ s.txBusy = false) ∨ (i = .lTxdoneOk ∧ s.txBusy = true)) ∧
        (∃ fin payload, segment = encSeg (!s.txBusy) fin s.txSeq payload) ∧
        1 ≤ segment.length ∧ segment.length ≤ 1 + s.cfg.maxSegmentUserDataSize ∧
        t.link = .online ∧ t.txBusy = true) ∧
      (∀ apdu, e = .uRx apdu → (∃ segment, i = .lRx segment) ∧
        apdu.length ≤ s.cfg.maxApduSize ∧ t.rxActive = false) ∧
      (e = .uTxdoneOk → i = .lTxdoneOk ∧ s.txBusy = true ∧ t.txBusy = false) ∧
      (e = .uTxdoneFail → i = .lTxdoneFail ∧ s.txBusy = true ∧ t.txBusy = false) ∧
      (e = .uLinkUp → i = .lLinkUp ∧ t.link = .online ∧ t.txSeq = 0#6) ∧
      (e = .uLinkDown → i = .lLinkDown ∧ t.link = .offline ∧ t.txBusy = false ∧
        t.rxActive = false)

/-- For every row that answers a next state: an event of the transmit path leaves link and every
receive register and byte of rx_buf as they were; an event of the receive path leaves link and
every transmit register and byte of tx_buf; an output row leaves all but the outputs; and link
changes only by L.LINK_UP from Offline to Online and by L.LINK_DOWN from Online to Offline. -/
def Obligations.PathsLeaveEachOtherAlone : Prop :=
  ∀ (i : Instr) (s t : State), exec i s = .next t →
    (isTransmit i = true →
      t.link = s.link ∧ t.rxActive = s.rxActive ∧ t.rxSeq = s.rxSeq ∧ t.rxLen = s.rxLen ∧
        ∀ a, Memory.read t.rxBuf a = Memory.read s.rxBuf a) ∧
    (isReceive i = true →
      t.link = s.link ∧ t.txSeq = s.txSeq ∧ t.txBusy = s.txBusy ∧ t.txLen = s.txLen ∧
        t.txPos = s.txPos ∧ ∀ a, Memory.read t.txBuf a = Memory.read s.txBuf a) ∧
    (i.isInput = false → isReceive i = false → t = { s with outputs := t.outputs }) ∧
    (t.link ≠ s.link →
      (i = .lLinkUp ∧ s.link = .offline ∧ t.link = .online) ∨
      (i = .lLinkDown ∧ s.link = .online ∧ t.link = .offline))

/-- R158: two states that agree on link, fault, the configuration and the transmit registers answer a
transmit event alike: both a next state, agreeing on the same again and with the same outputs
added, or the same stop. The same for receive events and the receive registers. -/
def Obligations.PathsDoNotReadEachOther : Prop :=
  ∀ (i : Instr) (s s' : State),
    (isTransmit i = true → SameTransmit s s' →
      (∃ t t', exec i s = .next t ∧ exec i s' = .next t' ∧ SameTransmit t t' ∧
        newOutputs s t = newOutputs s' t') ∨
      (∃ f, exec i s = .fault f ∧ exec i s' = .fault f) ∨
      (∃ r, exec i s = .refused r ∧ exec i s' = .refused r)) ∧
    (isReceive i = true → SameReceive s s' →
      (∃ t t', exec i s = .next t ∧ exec i s' = .next t' ∧ SameReceive t t' ∧
        newOutputs s t = newOutputs s' t') ∨
      (∃ f, exec i s = .fault f ∧ exec i s' = .fault f) ∨
      (∃ r, exec i s = .refused r ∧ exec i s' = .refused r))

/-- R64 and R35: from any running, Online state that satisfies the invariant, L.LINK_DOWN then
L.LINK_UP leave the reset state of the same configuration with link = Online; U.LINK_DOWN and
U.LINK_UP have been emitted. That both buffers hold no byte is the model's choice of
representation (log entry 4): R35 leaves the buffer bytes unspecified, and R64 only says that no
byte accepted before can appear in a later output. -/
def Obligations.LinkCycleForgetsEverything : Prop :=
  ∀ s : State, s.Running → s.Inv → s.link = .online →
    runEvents [.lLinkDown, .lLinkUp] s =
      .next { State.resetWith s.cfg with
        link := .online, inputs := s.inputs, outputs := s.outputs ++ [.uLinkDown, .uLinkUp] }

/-- R173: in a state with fault not 0 (and a well-formed configuration) every row of the table answers
the very same state, and a step consumes the pending transaction, legal or not, and changes
nothing else. -/
def Obligations.HaltedBlockIgnoresEverything : Prop :=
  (∀ (i : Instr) (s : State), s.cfg.WellFormed → s.fault ≠ 0#4 → exec i s = .next s) ∧
  (∀ (s : State) (x : Transaction) (rest : List Transaction), s.cfg.WellFormed →
    s.fault ≠ 0#4 → s.inputs = x :: rest → step s = .next { s with inputs := rest })

/-- R174: once fault is not 0, any run of rows of a block with a well-formed configuration,
L.LINK_DOWN and L.LINK_UP among them, ends in the very same state; so no event clears fault and it
keeps its first cause. Only State.reset has fault 0 again. -/
def Obligations.FaultIsPermanent : Prop :=
  (∀ (es : List Instr) (s : State), s.cfg.WellFormed → s.fault ≠ 0#4 →
    runEvents es s = .next s) ∧ (∀ c : Config, (State.resetWith c).fault = 0#4)

/-- R172: if any row of the table takes an unfaulted state to one with fault not 0, the new state is
the old one with only fault changed, and the code is one of the causes 1 to 9. -/
def Obligations.ViolationWritesOnlyTheCause : Prop :=
  ∀ (i : Instr) (s t : State), exec i s = .next t → s.fault = 0#4 → t.fault ≠ 0#4 →
    t = { s with fault := t.fault } ∧ 1 ≤ t.fault.toNat ∧ t.fault.toNat ≤ 9

/-- R171 and R175, for a state with a well-formed configuration: halted, any event is ignored; else an
illegal code records 9; then the link tests: U.SEND Offline 1, L.RX Offline 4 (over-long and zero-
length alike), L.LINK_UP Online 7, L.LINK_DOWN Offline 8; then the path tests: U.SEND while busy 2
(oversize or not), L.TXDONE_OK and L.TXDONE_FAIL while idle 6; then the size tests: U.SEND
oversize 3, L.RX over-long 5; and in every other case an input event that answers a next state
leaves fault 0. -/
def Obligations.CausesAreTestedInOrder : Prop :=
  ∀ (s : State), s.cfg.WellFormed →
    (∀ i : Instr, s.fault ≠ 0#4 → exec i s = .next s) ∧
    (s.fault = 0#4 →
      (∀ i : Instr, i.isIllegal = true → exec i s = .next { s with fault := 9#4 }) ∧
      (∀ apdu, s.link = .offline → exec (.uSend apdu) s = .next { s with fault := 1#4 }) ∧
      (∀ segment, s.link = .offline → exec (.lRx segment) s = .next { s with fault := 4#4 }) ∧
      (s.link = .online → exec .lLinkUp s = .next { s with fault := 7#4 }) ∧
      (s.link = .offline → exec .lLinkDown s = .next { s with fault := 8#4 }) ∧
      (∀ apdu, s.link = .online → s.txBusy = true →
        exec (.uSend apdu) s = .next { s with fault := 2#4 }) ∧
      (s.txBusy = false → exec .lTxdoneOk s = .next { s with fault := 6#4 } ∧
        exec .lTxdoneFail s = .next { s with fault := 6#4 }) ∧
      (∀ apdu, s.link = .online → s.txBusy = false → s.cfg.maxApduSize < apdu.length →
        exec (.uSend apdu) s = .next { s with fault := 3#4 }) ∧
      (∀ segment, s.link = .online → 1 + s.cfg.maxSegmentUserDataSize < segment.length →
        exec (.lRx segment) s = .next { s with fault := 5#4 }) ∧
      (∀ (i : Instr) (t : State), i.isInput = true → validEvent s i → exec i s = .next t →
        t.fault = 0#4))

/-- R180, in a running, Online block with payloads of at most S bytes: a zero-length L.RX and a non-
FIR segment with no reassembly in progress change nothing; a non-FIR segment with the wrong
number, or one that would make the message exceed MaxApduSize, only clears rx_active, rx_len,
rx_seq; a FIR segment during a reassembly replaces it (FIN = 0) or drops it and delivers only its
own payload (FIN = 1). fault stays 0 in all of them. -/
def Obligations.ProtocolViolationsAreSilent : Prop :=
  ∀ s : State, s.Running → s.link = .online →
    exec (.lRx []) s = .next s ∧
    ∀ (fin : Bool) (seq : Seq) (payload : List Byte),
      payload.length ≤ s.cfg.maxSegmentUserDataSize →
      (s.rxActive = false → exec (.lRx (encSeg false fin seq payload)) s = .next s) ∧
      (s.rxActive = true → seq ≠ inc6 s.rxSeq ∨ s.cfg.maxApduSize < s.rxLen + payload.length →
        ∃ t, exec (.lRx (encSeg false fin seq payload)) s = .next t ∧
          t = { s with rxActive := false, rxLen := 0, rxSeq := 0#6, rxBuf := t.rxBuf }) ∧
      (s.rxActive = true →
        ∃ t, exec (.lRx (encSeg true fin seq payload)) s = .next t ∧ t.fault = 0#4 ∧
          t.rxActive = !fin ∧ t.outputs = s.outputs ++ (if fin then [.uRx payload] else []) ∧
          t.rxLen = (if fin then 0 else payload.length))

/-- R9 and U1: with S = 0 or S > MaxApduSize every row of the table is refused by name. -/
def Obligations.IllFormedConfigurationIsRefused : Prop :=
  ∀ (i : Instr) (s : State),
    s.cfg.maxSegmentUserDataSize = 0 ∨ s.cfg.maxApduSize < s.cfg.maxSegmentUserDataSize →
      exec i s = .refused .illFormedConfig

/-- R35: after reset, with any configuration, link = Offline, tx_seq, tx_busy, tx_len, tx_pos,
rx_active, rx_seq, rx_len and fault are 0; the configuration is the one the block was built with;
and L.LINK_UP from there, with a well-formed configuration, changes no register but link, which
becomes Online (U.LINK_UP is emitted). Buffer bytes are unspecified in R35 and not part of this
statement. -/
def Obligations.ResetHasTheSpecValues : Prop :=
  ∀ c : Config,
    (∀ s ∈ [State.reset, State.resetWith c],
      s.link = .offline ∧ s.txSeq = 0#6 ∧ s.txBusy = false ∧ s.txLen = 0 ∧ s.txPos = 0 ∧
        s.rxActive = false ∧ s.rxSeq = 0#6 ∧ s.rxLen = 0 ∧ s.fault = 0#4) ∧
    (State.resetWith c).cfg = c ∧
    (c.WellFormed → ∃ t, exec .lLinkUp (State.resetWith c) = .next t ∧
      t = { State.resetWith c with link := .online, rxBuf := t.rxBuf, outputs := [.uLinkUp] })

/-- With any configuration the reset state satisfies the invariant, and the buffers' canonical form,
and the chunk alignment. The host's reset state does too, and its configuration is well-formed.
That the buffers list no byte, in canonical form, is the model's choice (log entry 4), and so is
the default configuration 2048 and 249 of State.reset (log entry 1). -/
def Obligations.ResetSatisfiesInvariant : Prop :=
  (∀ c : Config, (State.resetWith c).Inv ∧ (State.resetWith c).ChunkAligned) ∧
  State.reset.Inv ∧ State.reset.Running ∧
  Memory.wf State.reset.txBuf = true ∧ Memory.wf State.reset.rxBuf = true

/-- R34 items 1 to 5, the fault codes of R171 and, the model's representation (log entry 4), buffers
that list exactly the bytes below their length registers: from any state that satisfies them,
faulted or not, a step that answers a next state answers one that satisfies them, and so does
every row of the table. -/
def Obligations.StepKeepsInvariant : Prop :=
  (∀ s t : State, s.Inv → step s = .next t → t.Inv) ∧
  (∀ (i : Instr) (s t : State), s.Inv → exec i s = .next t → t.Inv)

/-- From any state whose buffers list their offsets strictly rising, a step that answers a next state
answers one whose buffers do. The form of the buffers is the model's (log entry 4). -/
def Obligations.StepKeepsMemoryCanonical : Prop :=
  ∀ s t : State, Memory.wf s.txBuf = true → Memory.wf s.rxBuf = true → step s = .next t →
    Memory.wf t.txBuf = true ∧ Memory.wf t.rxBuf = true

/-- A step that answers a next state leaves the configuration as it was, and the pending inputs are
those before it less the first: R12's one input event a step, on the list of pending inputs that
is the model's choice (log entry 2). -/
def Obligations.StepKeepsConfiguration : Prop :=
  ∀ s t : State, step s = .next t → t.cfg = s.cfg ∧ t.inputs = s.inputs.tail

/-- R150 and R54: in a running state that satisfies the invariant every input row and every class row
answers a next state: no access is out of range or of a byte never written. -/
def Obligations.EveryInputEventCompletes : Prop :=
  ∀ (i : Instr) (s : State), i.isInput = true ∨ isReceive i = true → s.Running → s.Inv →
    ∃ t, exec i s = .next t

/-- R34: for every well-formed configuration and every sequence of input events from reset, if the
state reached has fault 0, items 1 to 5 hold in it, and item 6: of the L.TX emitted, the number
that no L.TXDONE_OK, L.TXDONE_FAIL or L.LINK_DOWN has followed since (the count llOutstanding of
the neighbours' view) is exactly 1 if and only if tx_busy is 1, and 0 if and only if tx_busy is 0;
and no step of the run stopped. -/
def Obligations.ReachableUnfaultedStatesSatisfyR34 : Prop :=
  ∀ (c : Config) (es : List Instr), c.WellFormed → (∀ e ∈ es, e.isInput = true) →
    ∃ v t, runWatched es Neighbours.initial (State.resetWith c) = some (v, t) ∧
      (t.fault = 0#4 →
        t.OfflineIsIdle ∧ t.TxIdleIsClear ∧ t.TxBusyInRange ∧ t.RxIdleIsClear ∧ t.RxInRange ∧
          (t.txBusy = true ↔ v.llOutstanding = 1) ∧ (t.txBusy = false ↔ v.llOutstanding = 0))

/-- R208: for every well-formed configuration and every sequence of events from reset issued in
keeping with R203 to R206, the run goes through and fault is 0 at its end (so at every point of
it); and the first input event that then breaks a checkable duty is answered by the same state
with fault set to the cause that R203 to R206 name for a duty it breaks (which of them, where it
breaks several, is R175's order). -/
def Obligations.DutifulNeighboursNeverFault : Prop :=
  ∀ (c : Config) (es : List Instr), c.WellFormed →
    KeepsDuties es Neighbours.initial (State.resetWith c) →
      ∃ v t, runWatched es Neighbours.initial (State.resetWith c) = some (v, t) ∧
        t.fault = 0#4 ∧
        ∀ i : Instr, i.isInput = true → ¬ v.mayIssue t.cfg i →
          ∃ cause, v.breaches t.cfg cause i ∧ exec i t = .next { t with fault := cause.code }

/-- R207: with a send in flight, L.LINK_DOWN, L.LINK_UP, a new U.SEND of more than S bytes and then
the stale L.TXDONE_OK of the old segment: the block emits the new send's second segment, with
fault 0; a stale L.TXDONE_FAIL instead fails the new send, with fault 0. -/
def Obligations.StaleResultIsTakenForTheCurrentSegment : Prop :=
  ∀ (apdu : List Byte) (s : State), s.Running → s.Inv → s.link = .online → s.txBusy = true →
    s.cfg.maxSegmentUserDataSize < apdu.length → apdu.length ≤ s.cfg.maxApduSize →
    (∃ t, runEvents [.lLinkDown, .lLinkUp, .uSend apdu, .lTxdoneOk] s = .next t ∧
      t.fault = 0#4 ∧
      newOutputs s t = [.uLinkDown, .uLinkUp] ++
        ((segmentsOf s.cfg 0#6 apdu).take 2).map OutEvent.lTx ∧
      (segmentsOf s.cfg 0#6 apdu).length ≥ 2) ∧
    (∃ t, runEvents [.lLinkDown, .lLinkUp, .uSend apdu, .lTxdoneFail] s = .next t ∧
      t.fault = 0#4 ∧
      newOutputs s t = [.uLinkDown, .uLinkUp] ++
        ((segmentsOf s.cfg 0#6 apdu).take 1).map OutEvent.lTx ++ [.uTxdoneFail])
end

