-- ==== Sys2Proof/Laws/Memory.lean ====
section
/-! SUPPORT. The laws of the byte buffers: what a read finds after a write, the canonical form, and buffers that hold exactly the bytes below their length register. -/

namespace Sys2Proof.Machine

theorem Memory.read_write (m : Memory) (a : Nat) (b : Byte) (x : Nat) :
    Memory.read (Memory.write m a b) x = if x = a then some b else Memory.read m x := by
  induction m with
  | nil =>
    simp only [Memory.write, Memory.read]
    split_ifs <;> first | rfl | omega
  | cons c rest ih =>
    obtain ⟨k, v⟩ := c
    simp only [Memory.write]
    split_ifs with h1 h2 h3 h3 h3 <;> simp only [Memory.read, ih] <;>
      split_ifs <;> first | rfl | omega

/-- What `MemWrite` leaves to be read (R53): the new bytes in their places, every other as before. -/
theorem Memory.read_writeBytes (bs : List Byte) (m : Memory) (off x : Nat) :
    Memory.read (Memory.writeBytes m off bs) x =
      if off ≤ x ∧ x < off + bs.length then bs[x - off]? else Memory.read m x := by
  induction bs generalizing m off with
  | nil => simp only [Memory.writeBytes, List.length_nil]; rw [if_neg (by omega)]
  | cons b rest ih =>
    simp only [Memory.writeBytes, ih, Memory.read_write, List.length_cons]
    by_cases hx : x = off
    · subst hx; rw [if_neg (by omega), if_pos rfl, if_pos (by omega)]; simp
    · by_cases hr : off + 1 ≤ x ∧ x < off + 1 + rest.length
      · rw [if_pos hr, if_pos (by omega)]
        obtain ⟨d, rfl⟩ : ∃ d, x = off + (d + 1) := ⟨x - off - 1, by omega⟩
        rw [show off + (d + 1) - (off + 1) = d by omega, show off + (d + 1) - off = d + 1 by omega,
          List.getElem?_cons_succ]
      · rw [if_neg hr, if_neg hx, if_neg (by omega)]

/-- What `MemRead` answers (R52): the bytes, one for each offset, when each holds a value. -/
theorem Memory.readBytes_eq_some {m : Memory} {n off : Nat} {bs : List Byte} :
    Memory.readBytes m off n = some bs ↔
      bs.length = n ∧ ∀ k, k < n → Memory.read m (off + k) = bs[k]? := by
  induction n generalizing off bs with
  | zero =>
    simp only [Memory.readBytes, Option.some.injEq]
    constructor
    · rintro rfl; exact ⟨rfl, fun k hk => absurd hk (by omega)⟩
    · rintro ⟨h, -⟩; exact (List.length_eq_zero_iff.mp h).symm
  | succ n ih =>
    simp only [Memory.readBytes]
    constructor
    · intro h
      split at h
      · rename_i b rest hb hrest
        cases h
        obtain ⟨hlen, hall⟩ := ih.mp hrest
        refine ⟨by simp [hlen], fun k hk => ?_⟩
        cases k with
        | zero => simpa using hb
        | succ k =>
          have := hall k (by omega)
          rw [List.getElem?_cons_succ, ← this]
          congr 1; omega
      · cases h
    · rintro ⟨hlen, hall⟩
      cases bs with
      | nil => simp at hlen
      | cons b rest =>
        have h0 : Memory.read m off = some b := by simpa using hall 0 (by omega)
        have hr : Memory.readBytes m (off + 1) n = some rest := by
          refine ih.mpr ⟨by simpa using hlen, fun k hk => ?_⟩
          have := hall (k + 1) (by omega)
          rw [List.getElem?_cons_succ] at this
          rw [← this]; congr 1; omega
        simp only [h0, hr]

theorem Memory.wf_iff_pairwise (m : Memory) :
    Memory.wf m = true ↔ m.Pairwise (fun c d => c.1 < d.1) := by
  match m with
  | [] => simp [Memory.wf]
  | [_] => simp [Memory.wf]
  | c :: d :: rest =>
    have ih := Memory.wf_iff_pairwise (d :: rest)
    simp only [Memory.wf, Bool.and_eq_true, decide_eq_true_eq, ih, List.pairwise_cons (a := c)]
    constructor
    · rintro ⟨h1, h2⟩
      refine ⟨fun e he => ?_, h2⟩
      rcases List.mem_cons.mp he with rfl | he
      · exact h1
      · exact h1.trans ((List.pairwise_cons.mp h2).1 e he)
    · rintro ⟨h1, h2⟩
      exact ⟨h1 d (by simp), h2⟩

theorem Memory.mem_write {m : Memory} {a : Nat} {b : Byte} {c : Host.Cell}
    (h : c ∈ Memory.write m a b) : c.1 = a ∨ c ∈ m := by
  induction m with
  | nil => simp only [Memory.write, List.mem_singleton] at h; simp [h]
  | cons d rest ih =>
    obtain ⟨k, v⟩ := d
    simp only [Memory.write] at h
    split_ifs at h <;> simp only [List.mem_cons] at h ⊢
    · rcases h with rfl | h | h <;> simp_all
    · rcases h with rfl | h <;> simp_all
    · rcases h with rfl | h
      · simp
      · rcases ih h with h | h <;> simp [h]

/-- Writing a byte keeps the canonical form. -/
theorem Memory.write_wf {m : Memory} (a : Nat) (b : Byte) (h : Memory.wf m = true) :
    Memory.wf (Memory.write m a b) = true := by
  rw [Memory.wf_iff_pairwise] at h ⊢
  induction m with
  | nil => simp [Memory.write]
  | cons d rest ih =>
    obtain ⟨k, v⟩ := d
    obtain ⟨hk, hrest⟩ := List.pairwise_cons.mp h
    simp only [Memory.write]
    split_ifs with h1 h2
    · refine List.pairwise_cons.mpr ⟨fun e he => ?_, h⟩
      rcases List.mem_cons.mp he with rfl | he
      · exact h1
      · exact h1.trans (hk e he)
    · subst h2
      exact List.pairwise_cons.mpr ⟨hk, hrest⟩
    · refine List.pairwise_cons.mpr ⟨fun e he => ?_, ih hrest⟩
      rcases Memory.mem_write he with h3 | h3
      · simp only [h3]; omega
      · exact hk e h3

/-- Writing bytes keeps the canonical form. -/
theorem Memory.writeBytes_wf {m : Memory} (off : Nat) (bs : List Byte) (h : Memory.wf m = true) :
    Memory.wf (Memory.writeBytes m off bs) = true := by
  induction bs generalizing m off with
  | nil => exact h
  | cons b rest ih => exact ih (off + 1) (Memory.write_wf off b h)

/-- `memWrite` keeps the canonical form. -/
theorem memWrite_wf {c : Config} {m buf : Memory} {off : Nat} {v : List Byte}
    (hw : memWrite c m off v = .ok buf) (h : Memory.wf m = true) : Memory.wf buf = true := by
  simp only [memWrite] at hw
  split_ifs at hw
  cases hw
  exact Memory.writeBytes_wf off v h

theorem Memory.empty_wf : Memory.wf Memory.empty = true := rfl

/-- A byte written above all others goes to the end. -/
theorem Memory.write_above {m : Memory} {a : Nat} (b : Byte) (h : ∀ c ∈ m, c.1 < a) :
    Memory.write m a b = m ++ [(a, b)] := by
  induction m with
  | nil => rfl
  | cons d rest ih =>
    obtain ⟨k, v⟩ := d
    have hk : k < a := h (k, v) (by simp)
    simp only [Memory.write]
    rw [if_neg (by omega), if_neg (by omega), ih fun c hc => h c (by simp [hc])]
    rfl

theorem Memory.Exact.lt {m : Memory} {len : Nat} (h : Memory.Exact m len) :
    ∀ c ∈ m, c.1 < len := fun _ hc =>
  List.mem_range.mp (h ▸ List.mem_map_of_mem hc)

theorem Memory.Exact.length {m : Memory} {len : Nat} (h : Memory.Exact m len) : m.length = len := by
  simpa using congrArg List.length h

theorem Memory.exact_empty : Memory.Exact Memory.empty 0 := rfl

theorem Memory.Exact.eq_nil {m : Memory} (h : Memory.Exact m 0) : m = [] :=
  List.length_eq_zero_iff.mp h.length

/-- Appending bytes to an exact buffer (R135): exact again, and the bytes are the old and the new. -/
theorem Memory.Exact.append {m : Memory} {len : Nat} (h : Memory.Exact m len) (bs : List Byte) :
    Memory.Exact (Memory.writeBytes m len bs) (len + bs.length) ∧
      (Memory.writeBytes m len bs).map Prod.snd = m.map Prod.snd ++ bs := by
  induction bs generalizing m len with
  | nil => simpa [Memory.writeBytes] using h
  | cons b rest ih =>
    have hw := Memory.write_above (m := m) b h.lt
    have h' : Memory.Exact (Memory.write m len b) (len + 1) := by
      simp only [Memory.Exact, hw, List.map_append, h, List.range_succ]; rfl
    obtain ⟨h1, h2⟩ := ih h'
    simp only [Memory.writeBytes, List.length_cons]
    refine ⟨?_, ?_⟩
    · rw [show len + (rest.length + 1) = len + 1 + rest.length by omega]; exact h1
    · rw [h2, hw]; simp

/-- A fresh buffer (R111, R133): exact, and its bytes are the ones written. -/
theorem Memory.exact_fresh (bs : List Byte) :
    Memory.Exact (Memory.writeBytes Memory.empty 0 bs) bs.length ∧
      (Memory.writeBytes Memory.empty 0 bs).map Prod.snd = bs := by
  have h := Memory.exact_empty.append bs
  exact ⟨by simpa using h.1, h.2⟩

theorem Memory.read_of_exact {m : Memory} {off : Nat}
    (h : m.map Prod.fst = List.range' off m.length) (k : Nat) :
    Memory.read m (off + k) = (m.map Prod.snd)[k]? := by
  induction m generalizing off k with
  | nil => simp [Memory.read]
  | cons c rest ih =>
    obtain ⟨a, v⟩ := c
    simp only [List.map_cons, List.length_cons, List.range'_succ, List.cons.injEq] at h
    obtain ⟨rfl, h⟩ := h
    cases k with
    | zero => simp [Memory.read]
    | succ k =>
      simp only [Memory.read]
      rw [if_neg (by omega), show a + (k + 1) = a + 1 + k by omega, ih h k]
      simp

/-- Reading an exact buffer: the byte below the length register, nothing above it. -/
theorem Memory.Exact.read {m : Memory} {len : Nat} (h : Memory.Exact m len) (k : Nat) :
    Memory.read m k = (m.map Prod.snd)[k]? := by
  have hl := h.length
  have := Memory.read_of_exact (m := m) (off := 0)
    (by rw [hl, h, List.range_eq_range']) k
  simpa using this

/-- `MemRead(buf, 0, len)` of an exact buffer finds every byte (R55). -/
theorem Memory.Exact.readBytes {m : Memory} {len : Nat} (h : Memory.Exact m len) :
    Memory.readBytes m 0 len = some (m.map Prod.snd) :=
  Memory.readBytes_eq_some.mpr ⟨by simp [h.length], fun k _ => by simpa using h.read k⟩

/-- An exact buffer is in canonical form. -/
theorem Memory.Exact.wf {m : Memory} {len : Nat} (h : Memory.Exact m len) :
    Memory.wf m = true := by
  rw [Memory.wf_iff_pairwise]
  have := List.pairwise_lt_range (n := len)
  rw [← h, List.pairwise_map] at this
  exact this

end Sys2Proof.Machine
end

