-- ==== Sys2Proof/Laws/State.lean ====
section
/-! SUPPORT. One lemma per field of State per update, so that no proof unfolds a record update. -/

namespace Sys2Proof.Machine

@[simp] theorem State.emit_link (s : State) (e : OutEvent) : (s.emit e).link = s.link := rfl
@[simp] theorem State.emit_txSeq (s : State) (e : OutEvent) : (s.emit e).txSeq = s.txSeq := rfl
@[simp] theorem State.emit_txBusy (s : State) (e : OutEvent) : (s.emit e).txBusy = s.txBusy := rfl
@[simp] theorem State.emit_txBuf (s : State) (e : OutEvent) : (s.emit e).txBuf = s.txBuf := rfl
@[simp] theorem State.emit_txLen (s : State) (e : OutEvent) : (s.emit e).txLen = s.txLen := rfl
@[simp] theorem State.emit_txPos (s : State) (e : OutEvent) : (s.emit e).txPos = s.txPos := rfl
@[simp] theorem State.emit_rxActive (s : State) (e : OutEvent) : (s.emit e).rxActive = s.rxActive := rfl
@[simp] theorem State.emit_rxSeq (s : State) (e : OutEvent) : (s.emit e).rxSeq = s.rxSeq := rfl
@[simp] theorem State.emit_rxBuf (s : State) (e : OutEvent) : (s.emit e).rxBuf = s.rxBuf := rfl
@[simp] theorem State.emit_rxLen (s : State) (e : OutEvent) : (s.emit e).rxLen = s.rxLen := rfl
@[simp] theorem State.emit_fault (s : State) (e : OutEvent) : (s.emit e).fault = s.fault := rfl
@[simp] theorem State.emit_cfg (s : State) (e : OutEvent) : (s.emit e).cfg = s.cfg := rfl
@[simp] theorem State.emit_inputs (s : State) (e : OutEvent) : (s.emit e).inputs = s.inputs := rfl
@[simp] theorem State.emit_outputs (s : State) (e : OutEvent) : (s.emit e).outputs = s.outputs ++ [e] := rfl

@[simp] theorem State.raise_link (s : State) (c : Cause) : (s.raise c).link = s.link := rfl
@[simp] theorem State.raise_txSeq (s : State) (c : Cause) : (s.raise c).txSeq = s.txSeq := rfl
@[simp] theorem State.raise_txBusy (s : State) (c : Cause) : (s.raise c).txBusy = s.txBusy := rfl
@[simp] theorem State.raise_txBuf (s : State) (c : Cause) : (s.raise c).txBuf = s.txBuf := rfl
@[simp] theorem State.raise_txLen (s : State) (c : Cause) : (s.raise c).txLen = s.txLen := rfl
@[simp] theorem State.raise_txPos (s : State) (c : Cause) : (s.raise c).txPos = s.txPos := rfl
@[simp] theorem State.raise_rxActive (s : State) (c : Cause) : (s.raise c).rxActive = s.rxActive := rfl
@[simp] theorem State.raise_rxSeq (s : State) (c : Cause) : (s.raise c).rxSeq = s.rxSeq := rfl
@[simp] theorem State.raise_rxBuf (s : State) (c : Cause) : (s.raise c).rxBuf = s.rxBuf := rfl
@[simp] theorem State.raise_rxLen (s : State) (c : Cause) : (s.raise c).rxLen = s.rxLen := rfl
@[simp] theorem State.raise_fault (s : State) (c : Cause) : (s.raise c).fault = c.code := rfl
@[simp] theorem State.raise_cfg (s : State) (c : Cause) : (s.raise c).cfg = s.cfg := rfl
@[simp] theorem State.raise_inputs (s : State) (c : Cause) : (s.raise c).inputs = s.inputs := rfl
@[simp] theorem State.raise_outputs (s : State) (c : Cause) : (s.raise c).outputs = s.outputs := rfl

@[simp] theorem State.txToIdle_link (s : State) : (s.txToIdle).link = s.link := rfl
@[simp] theorem State.txToIdle_txSeq (s : State) : (s.txToIdle).txSeq = s.txSeq := rfl
@[simp] theorem State.txToIdle_txBusy (s : State) : (s.txToIdle).txBusy = false := rfl
@[simp] theorem State.txToIdle_txBuf (s : State) : (s.txToIdle).txBuf = [] := rfl
@[simp] theorem State.txToIdle_txLen (s : State) : (s.txToIdle).txLen = 0 := rfl
@[simp] theorem State.txToIdle_txPos (s : State) : (s.txToIdle).txPos = 0 := rfl
@[simp] theorem State.txToIdle_rxActive (s : State) : (s.txToIdle).rxActive = s.rxActive := rfl
@[simp] theorem State.txToIdle_rxSeq (s : State) : (s.txToIdle).rxSeq = s.rxSeq := rfl
@[simp] theorem State.txToIdle_rxBuf (s : State) : (s.txToIdle).rxBuf = s.rxBuf := rfl
@[simp] theorem State.txToIdle_rxLen (s : State) : (s.txToIdle).rxLen = s.rxLen := rfl
@[simp] theorem State.txToIdle_fault (s : State) : (s.txToIdle).fault = s.fault := rfl
@[simp] theorem State.txToIdle_cfg (s : State) : (s.txToIdle).cfg = s.cfg := rfl
@[simp] theorem State.txToIdle_inputs (s : State) : (s.txToIdle).inputs = s.inputs := rfl
@[simp] theorem State.txToIdle_outputs (s : State) : (s.txToIdle).outputs = s.outputs := rfl

@[simp] theorem State.rxToIdle_link (s : State) : (s.rxToIdle).link = s.link := rfl
@[simp] theorem State.rxToIdle_txSeq (s : State) : (s.rxToIdle).txSeq = s.txSeq := rfl
@[simp] theorem State.rxToIdle_txBusy (s : State) : (s.rxToIdle).txBusy = s.txBusy := rfl
@[simp] theorem State.rxToIdle_txBuf (s : State) : (s.rxToIdle).txBuf = s.txBuf := rfl
@[simp] theorem State.rxToIdle_txLen (s : State) : (s.rxToIdle).txLen = s.txLen := rfl
@[simp] theorem State.rxToIdle_txPos (s : State) : (s.rxToIdle).txPos = s.txPos := rfl
@[simp] theorem State.rxToIdle_rxActive (s : State) : (s.rxToIdle).rxActive = false := rfl
@[simp] theorem State.rxToIdle_rxSeq (s : State) : (s.rxToIdle).rxSeq = 0#6 := rfl
@[simp] theorem State.rxToIdle_rxBuf (s : State) : (s.rxToIdle).rxBuf = [] := rfl
@[simp] theorem State.rxToIdle_rxLen (s : State) : (s.rxToIdle).rxLen = 0 := rfl
@[simp] theorem State.rxToIdle_fault (s : State) : (s.rxToIdle).fault = s.fault := rfl
@[simp] theorem State.rxToIdle_cfg (s : State) : (s.rxToIdle).cfg = s.cfg := rfl
@[simp] theorem State.rxToIdle_inputs (s : State) : (s.rxToIdle).inputs = s.inputs := rfl
@[simp] theorem State.rxToIdle_outputs (s : State) : (s.rxToIdle).outputs = s.outputs := rfl

@[simp] theorem emitChunk_link (a : List Byte) (pos : Nat) (first : Bool) (s : State) :
    (emitChunk a pos first s).link = s.link := rfl
@[simp] theorem emitChunk_txSeq (a : List Byte) (pos : Nat) (first : Bool) (s : State) :
    (emitChunk a pos first s).txSeq = inc6 s.txSeq := rfl
@[simp] theorem emitChunk_txBusy (a : List Byte) (pos : Nat) (first : Bool) (s : State) :
    (emitChunk a pos first s).txBusy = s.txBusy := rfl
@[simp] theorem emitChunk_txBuf (a : List Byte) (pos : Nat) (first : Bool) (s : State) :
    (emitChunk a pos first s).txBuf = s.txBuf := rfl
@[simp] theorem emitChunk_txLen (a : List Byte) (pos : Nat) (first : Bool) (s : State) :
    (emitChunk a pos first s).txLen = s.txLen := rfl
@[simp] theorem emitChunk_txPos (a : List Byte) (pos : Nat) (first : Bool) (s : State) :
    (emitChunk a pos first s).txPos = pos + chunkLen s.cfg a.length pos := rfl
@[simp] theorem emitChunk_rxActive (a : List Byte) (pos : Nat) (first : Bool) (s : State) :
    (emitChunk a pos first s).rxActive = s.rxActive := rfl
@[simp] theorem emitChunk_rxSeq (a : List Byte) (pos : Nat) (first : Bool) (s : State) :
    (emitChunk a pos first s).rxSeq = s.rxSeq := rfl
@[simp] theorem emitChunk_rxBuf (a : List Byte) (pos : Nat) (first : Bool) (s : State) :
    (emitChunk a pos first s).rxBuf = s.rxBuf := rfl
@[simp] theorem emitChunk_rxLen (a : List Byte) (pos : Nat) (first : Bool) (s : State) :
    (emitChunk a pos first s).rxLen = s.rxLen := rfl
@[simp] theorem emitChunk_fault (a : List Byte) (pos : Nat) (first : Bool) (s : State) :
    (emitChunk a pos first s).fault = s.fault := rfl
@[simp] theorem emitChunk_cfg (a : List Byte) (pos : Nat) (first : Bool) (s : State) :
    (emitChunk a pos first s).cfg = s.cfg := rfl
@[simp] theorem emitChunk_inputs (a : List Byte) (pos : Nat) (first : Bool) (s : State) :
    (emitChunk a pos first s).inputs = s.inputs := rfl
@[simp] theorem emitChunk_outputs (a : List Byte) (pos : Nat) (first : Bool) (s : State) :
    (emitChunk a pos first s).outputs = s.outputs ++ [.lTx (encSeg first (chunkFin a.length pos (chunkLen s.cfg a.length pos)) s.txSeq (chunkBytes a pos (chunkLen s.cfg a.length pos)))] := rfl

@[simp] theorem State.resetWith_link (c : Config) : (State.resetWith c).link = State.reset.link := rfl
@[simp] theorem State.resetWith_txSeq (c : Config) : (State.resetWith c).txSeq = State.reset.txSeq := rfl
@[simp] theorem State.resetWith_txBusy (c : Config) : (State.resetWith c).txBusy = State.reset.txBusy := rfl
@[simp] theorem State.resetWith_txBuf (c : Config) : (State.resetWith c).txBuf = State.reset.txBuf := rfl
@[simp] theorem State.resetWith_txLen (c : Config) : (State.resetWith c).txLen = State.reset.txLen := rfl
@[simp] theorem State.resetWith_txPos (c : Config) : (State.resetWith c).txPos = State.reset.txPos := rfl
@[simp] theorem State.resetWith_rxActive (c : Config) : (State.resetWith c).rxActive = State.reset.rxActive := rfl
@[simp] theorem State.resetWith_rxSeq (c : Config) : (State.resetWith c).rxSeq = State.reset.rxSeq := rfl
@[simp] theorem State.resetWith_rxBuf (c : Config) : (State.resetWith c).rxBuf = State.reset.rxBuf := rfl
@[simp] theorem State.resetWith_rxLen (c : Config) : (State.resetWith c).rxLen = State.reset.rxLen := rfl
@[simp] theorem State.resetWith_fault (c : Config) : (State.resetWith c).fault = State.reset.fault := rfl
@[simp] theorem State.resetWith_cfg (c : Config) : (State.resetWith c).cfg = c := rfl
@[simp] theorem State.resetWith_inputs (c : Config) : (State.resetWith c).inputs = State.reset.inputs := rfl
@[simp] theorem State.resetWith_outputs (c : Config) : (State.resetWith c).outputs = State.reset.outputs := rfl

end Sys2Proof.Machine
end

