-- ==== Sys2Proof/Laws/Ops.lean ====
section
/-! SUPPORT. One lemma for each shared operation that says once everything it can do. -/

namespace Sys2Proof.Machine

/-- `MemRead` answers bytes exactly when the access is in the buffer and each byte holds a value. -/
theorem memRead_ok_iff {c : Config} {m : Memory} {off n : Nat} {bs : List Byte} :
    memRead c m off n = .ok bs ↔
      off + n ≤ c.maxApduSize ∧ bs.length = n ∧ ∀ k, k < n → Memory.read m (off + k) = bs[k]? := by
  simp only [memRead]
  rw [← Memory.readBytes_eq_some]
  split_ifs with h
  · constructor
    · intro h'; cases h'
    · rintro ⟨h', -⟩; omega
  · cases hr : Memory.readBytes m off n with
    | none => simp
    | some bs' =>
      constructor
      · intro h'; cases h'; exact ⟨by omega, rfl⟩
      · rintro ⟨-, h'⟩; cases h'; rfl

/-- `MemRead(buf, 0, len)` of an exact buffer within the capacity. -/
theorem Memory.Exact.memRead {c : Config} {m : Memory} {len : Nat} (h : Memory.Exact m len)
    (hc : len ≤ c.maxApduSize) : memRead c m 0 len = .ok (m.map Prod.snd) :=
  memRead_ok_iff.mpr ⟨by omega, by simp [h.length], fun k _ => by simpa using h.read k⟩

/-- `MemWrite` answers exactly when the access is in the buffer. -/
theorem memWrite_ok_iff {c : Config} {m buf : Memory} {off : Nat} {v : List Byte} :
    memWrite c m off v = .ok buf ↔
      off + v.length ≤ c.maxApduSize ∧ buf = Memory.writeBytes m off v := by
  simp only [memWrite]
  split_ifs with h
  · constructor
    · intro h'; cases h'
    · rintro ⟨h', -⟩; omega
  · constructor
    · intro h'; cases h'; exact ⟨by omega, rfl⟩
    · rintro ⟨-, rfl⟩; rfl

theorem memWrite_of_le {c : Config} {m : Memory} {off : Nat} {v : List Byte}
    (h : off + v.length ≤ c.maxApduSize) : memWrite c m off v = .ok (Memory.writeBytes m off v) :=
  memWrite_ok_iff.mpr ⟨h, rfl⟩

theorem facade_of_running {s : State} {o : Host.Outcome State Fault Refusal} (h : s.Running) :
    facade s o = o := by
  simp only [facade]
  rw [if_pos h.1, if_neg (by simpa using h.2)]

/-- What the Facade can answer: the state held while halted, or the operation's own answer. -/
theorem facade_next {s t : State} {o : Host.Outcome State Fault Refusal}
    (h : facade s o = .next t) : (s.Halted ∧ t = s) ∨ (s.Running ∧ o = .next t) := by
  simp only [facade] at h
  split_ifs at h with h1 h2
  · cases h; exact .inl ⟨h2, rfl⟩
  · exact .inr ⟨⟨h1, by simpa using h2⟩, h⟩

theorem receiveGate_of_open {s : State} {len : Nat} {o : Host.Outcome State Fault Refusal}
    (hl : s.link = .online) (hn : len ≤ 1 + s.cfg.maxSegmentUserDataSize) :
    receiveGate s len o = o := by
  simp only [receiveGate]
  rw [if_neg (by simp [hl]), if_neg (by omega)]

/-- What the gate of R131 can answer: one of its two violations, or the operation's own answer. -/
theorem receiveGate_next {s t : State} {len : Nat} {o : Host.Outcome State Fault Refusal}
    (h : receiveGate s len o = .next t) :
    (s.link = .offline ∧ t = s.raise .rxOffline) ∨
      (s.link = .online ∧ 1 + s.cfg.maxSegmentUserDataSize < len ∧ t = s.raise .rxOversize) ∨
      (s.link = .online ∧ len ≤ 1 + s.cfg.maxSegmentUserDataSize ∧ o = .next t) := by
  simp only [receiveGate] at h
  have hl : ¬ s.link = .offline → s.link = .online := by cases s.link <;> simp
  split_ifs at h with h1 h2
  · cases h; exact .inl ⟨h1, rfl⟩
  · cases h; exact .inr (.inl ⟨hl h1, h2, rfl⟩)
  · exact .inr (.inr ⟨hl h1, by omega, h⟩)

/-- The state a `SEG_FIRST` leaves (R133). -/
theorem receiveFirst_next {seq : Seq} {payload : List Byte} {s t : State}
    (h : receiveFirst seq payload s = .next t) :
    payload.length ≤ s.cfg.maxApduSize ∧
      t = { s with rxBuf := Memory.writeBytes Memory.empty 0 payload, rxLen := payload.length,
                   rxSeq := seq, rxActive := true } := by
  simp only [receiveFirst] at h
  cases hw : memWrite s.cfg Memory.empty 0 payload with
  | error f => rw [hw] at h; cases h
  | ok buf =>
    rw [hw] at h
    obtain ⟨h1, rfl⟩ := memWrite_ok_iff.mp hw
    cases h
    exact ⟨by omega, rfl⟩

/-- The three things a `SEG_MIDDLE` does (R135). -/
theorem receiveMiddle_next {seq : Seq} {payload : List Byte} {s t : State}
    (h : receiveMiddle seq payload s = .next t) :
    (s.rxActive = false ∧ t = s) ∨
      (s.rxActive = true ∧ s.Accepts seq payload ∧
        t = { s with rxBuf := Memory.writeBytes s.rxBuf s.rxLen payload,
                     rxLen := s.rxLen + payload.length, rxSeq := seq }) ∨
      (s.rxActive = true ∧ ¬ s.Accepts seq payload ∧ t = s.rxToIdle) := by
  simp only [receiveMiddle] at h
  split_ifs at h with h1 h2
  · cases h; exact .inl ⟨h1, rfl⟩
  · cases hw : memWrite s.cfg s.rxBuf s.rxLen payload with
    | error f => rw [hw] at h; cases h
    | ok buf =>
      rw [hw] at h
      obtain ⟨-, rfl⟩ := memWrite_ok_iff.mp hw
      cases h
      exact .inr (.inl ⟨by simpa using h1, h2, rfl⟩)
  · cases h; exact .inr (.inr ⟨by simpa using h1, h2, rfl⟩)

/-- The three things a `SEG_LAST` does (R136). -/
theorem receiveLast_next {seq : Seq} {payload : List Byte} {s t : State}
    (h : receiveLast seq payload s = .next t) :
    (s.rxActive = false ∧ t = s) ∨
      (s.rxActive = true ∧ s.Accepts seq payload ∧
        ∃ a, memRead s.cfg s.rxBuf 0 s.rxLen = .ok a ∧ t = s.rxToIdle.emit (.uRx (a ++ payload))) ∨
      (s.rxActive = true ∧ ¬ s.Accepts seq payload ∧ t = s.rxToIdle) := by
  simp only [receiveLast] at h
  split_ifs at h with h1 h2
  · cases h; exact .inl ⟨h1, rfl⟩
  · cases hw : memRead s.cfg s.rxBuf 0 s.rxLen with
    | error f => rw [hw] at h; cases h
    | ok a =>
      rw [hw] at h
      cases h
      exact .inr (.inl ⟨by simpa using h1, h2, a, rfl, rfl⟩)
  · cases h; exact .inr (.inr ⟨by simpa using h1, h2, rfl⟩)

theorem runEvents_cons_of_next {i : Instr} {rest : List Instr} {s t : State}
    (h : exec i s = .next t) : runEvents (i :: rest) s = runEvents rest t := by
  simp only [runEvents, h]

/-- A run of one list of events after another. -/
theorem runEvents_append {es fs : List Instr} {s t : State} (h : runEvents es s = .next t) :
    runEvents (es ++ fs) s = runEvents fs t := by
  induction es generalizing s with
  | nil => cases h; rfl
  | cons i rest ih =>
    simp only [runEvents, List.cons_append] at h ⊢
    cases he : exec i s with
    | next u => rw [he] at h; exact ih h
    | fault f => rw [he] at h; cases h
    | refused r => rw [he] at h; cases h

/-- A run that goes through starts with a step that goes through. -/
theorem runEvents_cons_next {i : Instr} {rest : List Instr} {s t : State}
    (h : runEvents (i :: rest) s = .next t) :
    ∃ u, exec i s = .next u ∧ runEvents rest u = .next t := by
  simp only [runEvents] at h
  cases he : exec i s with
  | next u => rw [he] at h; exact ⟨u, rfl, h⟩
  | fault f => rw [he] at h; cases h
  | refused r => rw [he] at h; cases h

end Sys2Proof.Machine
end

