-- ==== Sys2Proof/Laws/Events.lean ====
section
/-! SUPPORT. What each event can do, once: if it answers a next state, one of these cases holds. -/

namespace Sys2Proof.Machine

/-- The next states of `U.SEND` (R111). -/
theorem execUSend_next {apdu : List Byte} {s t : State} (h : execUSend apdu s = .next t) :
    (s.Halted ∧ t = s) ∨ s.Running ∧
      ((s.link = .offline ∧ t = s.raise .sendOffline) ∨
       (s.link = .online ∧ s.txBusy = true ∧ t = s.raise .sendBusy) ∨
       (s.link = .online ∧ s.txBusy = false ∧ s.cfg.maxApduSize < apdu.length ∧
          t = s.raise .sendOversize) ∨
       (s.link = .online ∧ s.txBusy = false ∧ apdu.length ≤ s.cfg.maxApduSize ∧
          t = emitChunk apdu 0 true { s with txBuf := Memory.writeBytes Memory.empty 0 apdu,
                                             txLen := apdu.length, txBusy := true })) := by
  rcases facade_next h with h | ⟨hr, h⟩
  · exact .inl h
  refine .inr ⟨hr, ?_⟩
  have hl : ¬ s.link = .offline → s.link = .online := by cases s.link <;> simp
  split_ifs at h with h1 h2 h3
  · cases h; exact .inl ⟨h1, rfl⟩
  · cases h; exact .inr (.inl ⟨hl h1, h2, rfl⟩)
  · cases h; exact .inr (.inr (.inl ⟨hl h1, by simpa using h2, h3, rfl⟩))
  · rw [memWrite_of_le (by omega)] at h
    cases h
    exact .inr (.inr (.inr ⟨hl h1, by simpa using h2, by omega, rfl⟩))

/-- The next states of `L.TXDONE_OK` (R115). -/
theorem execLTxdoneOk_next {s t : State} (h : execLTxdoneOk s = .next t) :
    (s.Halted ∧ t = s) ∨ s.Running ∧
      ((s.txBusy = false ∧ t = s.raise .txdoneIdle) ∨
       (s.txBusy = true ∧ s.txPos < s.txLen ∧
          ∃ a, memRead s.cfg s.txBuf 0 s.txLen = .ok a ∧ t = emitChunk a s.txPos false s) ∨
       (s.txBusy = true ∧ s.txLen ≤ s.txPos ∧ t = s.txToIdle.emit .uTxdoneOk)) := by
  rcases facade_next h with h | ⟨hr, h⟩
  · exact .inl h
  refine .inr ⟨hr, ?_⟩
  split_ifs at h with h1 h2
  · cases h; exact .inl ⟨h1, rfl⟩
  · cases hm : memRead s.cfg s.txBuf 0 s.txLen with
    | error f => rw [hm] at h; cases h
    | ok a =>
      rw [hm] at h
      cases h
      exact .inr (.inl ⟨by simpa using h1, h2, a, rfl, rfl⟩)
  · cases h; exact .inr (.inr ⟨by simpa using h1, by omega, rfl⟩)

/-- The next states of `L.TXDONE_FAIL` (R116). -/
theorem execLTxdoneFail_next {s t : State} (h : execLTxdoneFail s = .next t) :
    (s.Halted ∧ t = s) ∨ s.Running ∧
      ((s.txBusy = false ∧ t = s.raise .txdoneIdle) ∨
       (s.txBusy = true ∧ t = s.txToIdle.emit .uTxdoneFail)) := by
  rcases facade_next h with h | ⟨hr, h⟩
  · exact .inl h
  refine .inr ⟨hr, ?_⟩
  split_ifs at h with h1
  · cases h; exact .inl ⟨h1, rfl⟩
  · cases h; exact .inr ⟨by simpa using h1, rfl⟩

/-- The next states of `L.LINK_UP` (R155). -/
theorem execLLinkUp_next {s t : State} (h : execLLinkUp s = .next t) :
    (s.Halted ∧ t = s) ∨ s.Running ∧
      ((s.link = .online ∧ t = s.raise .linkupOnline) ∨
       (s.link = .offline ∧
          t = { s.rxToIdle with link := .online, txSeq := Config.txSeqAfterLinkUp }.emit
            .uLinkUp)) := by
  rcases facade_next h with h | ⟨hr, h⟩
  · exact .inl h
  refine .inr ⟨hr, ?_⟩
  have hl : ¬ s.link = .online → s.link = .offline := by cases s.link <;> simp
  split_ifs at h with h1
  · cases h; exact .inl ⟨h1, rfl⟩
  · cases h; exact .inr ⟨hl h1, rfl⟩

/-- The next states of `L.LINK_DOWN` (R156). -/
theorem execLLinkDown_next {s t : State} (h : execLLinkDown s = .next t) :
    (s.Halted ∧ t = s) ∨ s.Running ∧
      ((s.link = .offline ∧ t = s.raise .linkdownOffline) ∨
       (s.link = .online ∧
          t = { s.txToIdle.rxToIdle with link := .offline }.emit .uLinkDown)) := by
  rcases facade_next h with h | ⟨hr, h⟩
  · exact .inl h
  refine .inr ⟨hr, ?_⟩
  have hl : ¬ s.link = .offline → s.link = .online := by cases s.link <;> simp
  split_ifs at h with h1
  · cases h; exact .inl ⟨h1, rfl⟩
  · cases h; exact .inr ⟨hl h1, rfl⟩

/-- The next states of an illegal input (R78). -/
theorem illegalInput_next {s t : State} (h : illegalInput s = .next t) :
    (s.Halted ∧ t = s) ∨ s.Running ∧ t = s.raise .illegalEvent := by
  rcases facade_next h with h | ⟨hr, h⟩
  · exact .inl h
  · cases h; exact .inr ⟨hr, rfl⟩

/-- The next states of an operation behind the gate of R131. -/
theorem gated_next {s t : State} {len : Nat} {o : Host.Outcome State Fault Refusal}
    (h : facade s (receiveGate s len o) = .next t) :
    (s.Halted ∧ t = s) ∨ s.Running ∧
      ((s.link = .offline ∧ t = s.raise .rxOffline) ∨
       (s.link = .online ∧ 1 + s.cfg.maxSegmentUserDataSize < len ∧ t = s.raise .rxOversize) ∨
       (s.link = .online ∧ len ≤ 1 + s.cfg.maxSegmentUserDataSize ∧ o = .next t)) := by
  rcases facade_next h with h | ⟨hr, h⟩
  · exact .inl h
  · exact .inr ⟨hr, receiveGate_next h⟩

/-- The next states of an output row (R160 to R164). -/
theorem facade_emit_next {s t : State} {e : OutEvent}
    (h : facade s (.next (s.emit e)) = .next t) :
    (s.Halted ∧ t = s) ∨ s.Running ∧ t = s.emit e := by
  rcases facade_next h with h | ⟨hr, h⟩
  · exact .inl h
  · cases h; exact .inr ⟨hr, rfl⟩

/-- What a row can do to an unfaulted block, by cases: a contract violation, or the row's own effect. -/
inductive Effect : Instr → State → State → Prop where
  | violation (i : Instr) (s : State) (c : Cause) (h : i.isInput = true ∨ isReceive i = true)
      (hv : i.isInput = true → ¬ validEvent s i) : Effect i s (s.raise c)
  | send (apdu : List Byte) (s : State) (hl : s.link = .online) (hb : s.txBusy = false)
      (hn : apdu.length ≤ s.cfg.maxApduSize) :
      Effect (.uSend apdu) s
        (emitChunk apdu 0 true { s with txBuf := Memory.writeBytes Memory.empty 0 apdu,
                                        txLen := apdu.length, txBusy := true })
  | nextChunk (a : List Byte) (s : State) (hb : s.txBusy = true) (hp : s.txPos < s.txLen)
      (ha : memRead s.cfg s.txBuf 0 s.txLen = .ok a) :
      Effect .lTxdoneOk s (emitChunk a s.txPos false s)
  | sendDone (s : State) (hb : s.txBusy = true) (hp : s.txLen ≤ s.txPos) :
      Effect .lTxdoneOk s (s.txToIdle.emit .uTxdoneOk)
  | sendFailed (s : State) (hb : s.txBusy = true) :
      Effect .lTxdoneFail s (s.txToIdle.emit .uTxdoneFail)
  | linkUp (s : State) (hl : s.link = .offline) :
      Effect .lLinkUp s
        ({ s.rxToIdle with link := .online, txSeq := Config.txSeqAfterLinkUp }.emit .uLinkUp)
  | linkDown (s : State) (hl : s.link = .online) :
      Effect .lLinkDown s ({ s.txToIdle.rxToIdle with link := .offline }.emit .uLinkDown)
  | receiveEmpty (s : State) (hl : s.link = .online) : Effect (.lRx []) s s
  | received (i : Instr) (g : Segment) (s t : State)
      (hi : i = g.instr ∨ ∃ bytes, i = .lRx bytes ∧ decSeg bytes = some g)
      (hl : s.link = .online) (hn : g.payload.length ≤ s.cfg.maxSegmentUserDataSize)
      (ht : receiveDecoded (some g) s = .next t) : Effect i s t
  | output (e : OutEvent) (s : State) : Effect e.instr s (s.emit e)

/-- A class row is the receipt of its segment behind the gate of R131. -/
theorem exec_class_next {g : Segment} {s t : State} (h : exec g.instr s = .next t) :
    (s.Halted ∧ t = s) ∨ s.Running ∧ Effect g.instr s t := by
  obtain ⟨fir, fin, seq, payload⟩ := g
  have hc : facade s (receiveGate s (1 + payload.length)
      (receiveDecoded (some ⟨fir, fin, seq, payload⟩) s)) = .next t := by
    revert h; cases fir <;> cases fin <;> exact id
  have hi : isReceive (Segment.instr ⟨fir, fin, seq, payload⟩) = true := by
    cases fir <;> cases fin <;> rfl
  have hf : (Segment.instr ⟨fir, fin, seq, payload⟩).isInput = false := by
    cases fir <;> cases fin <;> rfl
  rcases gated_next hc with h | ⟨hr, h | h | h⟩
  · exact .inl h
  · exact .inr ⟨hr, h.2 ▸ .violation _ _ _ (.inr hi) (by simp [hf])⟩
  · exact .inr ⟨hr, h.2.2 ▸ .violation _ _ _ (.inr hi) (by simp [hf])⟩
  · exact .inr ⟨hr, .received _ ⟨fir, fin, seq, payload⟩ _ _ (.inl rfl) h.1 (by simp; omega) h.2.2⟩

/-- The next states of any row: the state held while halted, or one of the cases of `Effect`. -/
theorem exec_next {i : Instr} {s t : State} (h : exec i s = .next t) :
    (s.Halted ∧ t = s) ∨ s.Running ∧ Effect i s t := by
  cases i with
  | lLinkDown =>
    rcases execLLinkDown_next h with h | ⟨hr, ⟨hl, rfl⟩ | ⟨hl, rfl⟩⟩
    · exact .inl h
    · exact .inr ⟨hr, .violation _ _ _ (.inl rfl) fun _ hv => by simp [validEvent, hl] at hv⟩
    · exact .inr ⟨hr, .linkDown s hl⟩
  | lLinkUp =>
    rcases execLLinkUp_next h with h | ⟨hr, ⟨hl, rfl⟩ | ⟨hl, rfl⟩⟩
    · exact .inl h
    · exact .inr ⟨hr, .violation _ _ _ (.inl rfl) fun _ hv => by simp [validEvent, hl] at hv⟩
    · exact .inr ⟨hr, .linkUp s hl⟩
  | lTxdoneFail =>
    rcases execLTxdoneFail_next h with h | ⟨hr, ⟨hb, rfl⟩ | ⟨hb, rfl⟩⟩
    · exact .inl h
    · exact .inr ⟨hr, .violation _ _ _ (.inl rfl) fun _ hv => by simp [validEvent, hb] at hv⟩
    · exact .inr ⟨hr, .sendFailed s hb⟩
  | lTxdoneOk =>
    rcases execLTxdoneOk_next h with h | ⟨hr, ⟨hb, rfl⟩ | ⟨hb, hp, a, ha, rfl⟩ | ⟨hb, hp, rfl⟩⟩
    · exact .inl h
    · exact .inr ⟨hr, .violation _ _ _ (.inl rfl) fun _ hv => by simp [validEvent, hb] at hv⟩
    · exact .inr ⟨hr, .nextChunk a s hb hp ha⟩
    · exact .inr ⟨hr, .sendDone s hb hp⟩
  | uSend apdu =>
    rcases execUSend_next h with
      h | ⟨hr, ⟨hl, rfl⟩ | ⟨hl, hb, rfl⟩ | ⟨hl, hb, hn, rfl⟩ | ⟨hl, hb, hn, rfl⟩⟩
    · exact .inl h
    · exact .inr ⟨hr, .violation _ _ _ (.inl rfl) fun _ hv => by simp [validEvent, hl] at hv⟩
    · exact .inr ⟨hr, .violation _ _ _ (.inl rfl) fun _ hv => by simp [validEvent, hb] at hv⟩
    · exact .inr ⟨hr, .violation _ _ _ (.inl rfl) fun _ hv => by have := hv.2.2; omega⟩
    · exact .inr ⟨hr, .send apdu s hl hb hn⟩
  | lRx bytes =>
    rcases gated_next h with h | ⟨hr, ⟨hl, rfl⟩ | ⟨hl, hn, rfl⟩ | ⟨hl, hn, h⟩⟩
    · exact .inl h
    · exact .inr ⟨hr, .violation _ _ _ (.inl rfl) fun _ hv => by simp [validEvent, hl] at hv⟩
    · exact .inr ⟨hr, .violation _ _ _ (.inl rfl) fun _ hv => by have := hv.2; omega⟩
    · cases bytes with
      | nil => cases h; exact .inr ⟨hr, .receiveEmpty s hl⟩
      | cons hdr payload =>
        refine .inr ⟨hr, .received _ _ _ _ (.inr ⟨_, rfl, rfl⟩) hl ?_ h⟩
        simp only [List.length_cons] at hn ⊢
        omega
  | segMiddle seq payload => exact exec_class_next (g := ⟨false, false, seq, payload⟩) h
  | segLast seq payload => exact exec_class_next (g := ⟨false, true, seq, payload⟩) h
  | segFirst seq payload => exact exec_class_next (g := ⟨true, false, seq, payload⟩) h
  | segSingle seq payload => exact exec_class_next (g := ⟨true, true, seq, payload⟩) h
  | lTx segment =>
    rcases facade_next h with h | ⟨hr, h⟩
    · exact .inl h
    · split_ifs at h; cases h; exact .inr ⟨hr, .output (.lTx segment) s⟩
  | uRx apdu =>
    rcases facade_next h with h | ⟨hr, h⟩
    · exact .inl h
    · split_ifs at h; cases h; exact .inr ⟨hr, .output (.uRx apdu) s⟩
  | uLinkDown =>
    rcases facade_emit_next h with h | ⟨hr, rfl⟩
    · exact .inl h
    · exact .inr ⟨hr, .output .uLinkDown s⟩
  | uLinkUp =>
    rcases facade_emit_next h with h | ⟨hr, rfl⟩
    · exact .inl h
    · exact .inr ⟨hr, .output .uLinkUp s⟩
  | uTxdoneFail =>
    rcases facade_emit_next h with h | ⟨hr, rfl⟩
    · exact .inl h
    · exact .inr ⟨hr, .output .uTxdoneFail s⟩
  | uTxdoneOk =>
    rcases facade_emit_next h with h | ⟨hr, rfl⟩
    · exact .inl h
    · exact .inr ⟨hr, .output .uTxdoneOk s⟩
  | illegalIn5 | illegalIn6 | illegalIn7 | illegalIn8 | illegalIn9 | illegalInA | illegalInB
  | illegalInD | illegalInE | illegalInF =>
    rcases illegalInput_next h with h | ⟨hr, rfl⟩
    · exact .inl h
    · exact .inr ⟨hr, .violation _ _ _ (.inl rfl) fun _ hv => hv⟩

/-- The next states of the receipt of a segment past the gate, by its class (R133 to R136). -/
theorem receiveDecoded_next {g : Segment} {s t : State}
    (h : receiveDecoded (some g) s = .next t) :
    (g.fir = true ∧ g.fin = false ∧
      t = { s with rxBuf := Memory.writeBytes Memory.empty 0 g.payload,
                   rxLen := g.payload.length, rxSeq := g.seq, rxActive := true }) ∨
    (g.fir = true ∧ g.fin = true ∧ t = s.rxToIdle.emit (.uRx g.payload)) ∨
    (g.fir = false ∧ s.rxActive = false ∧ t = s) ∨
    (g.fir = false ∧ g.fin = false ∧ s.rxActive = true ∧ s.Accepts g.seq g.payload ∧
      t = { s with rxBuf := Memory.writeBytes s.rxBuf s.rxLen g.payload,
                   rxLen := s.rxLen + g.payload.length, rxSeq := g.seq }) ∨
    (g.fir = false ∧ g.fin = true ∧ s.rxActive = true ∧ s.Accepts g.seq g.payload ∧
      ∃ a, memRead s.cfg s.rxBuf 0 s.rxLen = .ok a ∧
        t = s.rxToIdle.emit (.uRx (a ++ g.payload))) ∨
    (g.fir = false ∧ s.rxActive = true ∧ ¬ s.Accepts g.seq g.payload ∧ t = s.rxToIdle) := by
  obtain ⟨fir, fin, seq, payload⟩ := g
  cases fir <;> cases fin
  · rcases receiveMiddle_next h with ⟨h1, h2⟩ | ⟨h1, h2, h3⟩ | ⟨h1, h2, h3⟩
    · exact .inr (.inr (.inl ⟨rfl, h1, h2⟩))
    · exact .inr (.inr (.inr (.inl ⟨rfl, rfl, h1, h2, h3⟩)))
    · exact .inr (.inr (.inr (.inr (.inr ⟨rfl, h1, h2, h3⟩))))
  · rcases receiveLast_next h with ⟨h1, h2⟩ | ⟨h1, h2, h3⟩ | ⟨h1, h2, h3⟩
    · exact .inr (.inr (.inl ⟨rfl, h1, h2⟩))
    · exact .inr (.inr (.inr (.inr (.inl ⟨rfl, rfl, h1, h2, h3⟩))))
    · exact .inr (.inr (.inr (.inr (.inr ⟨rfl, h1, h2, h3⟩))))
  · exact .inl ⟨rfl, rfl, (receiveFirst_next h).2⟩
  · cases h; exact .inr (.inl ⟨rfl, rfl, rfl⟩)

end Sys2Proof.Machine
end

