-- ==== Sys2Proof/Laws/PerInstr.lean ====
section
/-! SUPPORT. A fact about every row of the opcode table, one lemma per constructor: the encoder's first byte has the row's match bits under the row's mask. -/

namespace Sys2Proof.Laws

/-- The first byte of an encoded row: an event code with its upper bits 0, or a segment's header. -/
def firstByte : Encoded → Byte
  | .evtIn t => t.code.setWidth 8
  | .evtOut t => t.code.setWidth 8
  | .tpdu [] => 0#8
  | .tpdu (b :: _) => b

/-- The columns "match" and "mask" of spec/opcode_table.json. -/
def tableRow : Instr → Byte × Byte
  | .lLinkDown => (0x00#8, 0x0F#8)
  | .lLinkUp => (0x01#8, 0x0F#8)
  | .lTxdoneFail => (0x02#8, 0x0F#8)
  | .lTxdoneOk => (0x03#8, 0x0F#8)
  | .lRx _ => (0x04#8, 0x0F#8)
  | .uSend _ => (0x0C#8, 0x0F#8)
  | .illegalIn5 => (0x05#8, 0x0F#8)
  | .illegalIn6 => (0x06#8, 0x0F#8)
  | .illegalIn7 => (0x07#8, 0x0F#8)
  | .illegalIn8 => (0x08#8, 0x0F#8)
  | .illegalIn9 => (0x09#8, 0x0F#8)
  | .illegalInA => (0x0A#8, 0x0F#8)
  | .illegalInB => (0x0B#8, 0x0F#8)
  | .illegalInD => (0x0D#8, 0x0F#8)
  | .illegalInE => (0x0E#8, 0x0F#8)
  | .illegalInF => (0x0F#8, 0x0F#8)
  | .lTx _ => (0x04#8, 0x0F#8)
  | .uLinkDown => (0x08#8, 0x0F#8)
  | .uLinkUp => (0x09#8, 0x0F#8)
  | .uTxdoneFail => (0x0A#8, 0x0F#8)
  | .uTxdoneOk => (0x0B#8, 0x0F#8)
  | .uRx _ => (0x0C#8, 0x0F#8)
  | .segMiddle _ _ => (0x00#8, 0xC0#8)
  | .segLast _ _ => (0x40#8, 0xC0#8)
  | .segFirst _ _ => (0x80#8, 0xC0#8)
  | .segSingle _ _ => (0xC0#8, 0xC0#8)

/-- The encoder agrees with the table's row (R72, R77). -/
def MatchesRow.Statement (i : Instr) : Prop :=
  firstByte (encode i) &&& (tableRow i).2 = (tableRow i).1

theorem encHdr_class (fir fin : Bool) :
    ∀ seq : Seq, encHdr fir fin seq &&& 0xC0#8 = encHdr fir fin 0#6 := by
  cases fir <;> cases fin <;> decide

theorem MatchesRow.lLinkDown : MatchesRow.Statement .lLinkDown := rfl
theorem MatchesRow.lLinkUp : MatchesRow.Statement .lLinkUp := rfl
theorem MatchesRow.lTxdoneFail : MatchesRow.Statement .lTxdoneFail := rfl
theorem MatchesRow.lTxdoneOk : MatchesRow.Statement .lTxdoneOk := rfl
theorem MatchesRow.lRx (segment : List Byte) : MatchesRow.Statement (.lRx segment) := by
  simp [MatchesRow.Statement, firstByte, encode, tableRow]
theorem MatchesRow.uSend (apdu : List Byte) : MatchesRow.Statement (.uSend apdu) := by
  simp [MatchesRow.Statement, firstByte, encode, tableRow]
theorem MatchesRow.illegalIn5 : MatchesRow.Statement .illegalIn5 := rfl
theorem MatchesRow.illegalIn6 : MatchesRow.Statement .illegalIn6 := rfl
theorem MatchesRow.illegalIn7 : MatchesRow.Statement .illegalIn7 := rfl
theorem MatchesRow.illegalIn8 : MatchesRow.Statement .illegalIn8 := rfl
theorem MatchesRow.illegalIn9 : MatchesRow.Statement .illegalIn9 := rfl
theorem MatchesRow.illegalInA : MatchesRow.Statement .illegalInA := rfl
theorem MatchesRow.illegalInB : MatchesRow.Statement .illegalInB := rfl
theorem MatchesRow.illegalInD : MatchesRow.Statement .illegalInD := rfl
theorem MatchesRow.illegalInE : MatchesRow.Statement .illegalInE := rfl
theorem MatchesRow.illegalInF : MatchesRow.Statement .illegalInF := rfl
theorem MatchesRow.lTx (segment : List Byte) : MatchesRow.Statement (.lTx segment) := by
  simp [MatchesRow.Statement, firstByte, encode, tableRow]
theorem MatchesRow.uLinkDown : MatchesRow.Statement .uLinkDown := rfl
theorem MatchesRow.uLinkUp : MatchesRow.Statement .uLinkUp := rfl
theorem MatchesRow.uTxdoneFail : MatchesRow.Statement .uTxdoneFail := rfl
theorem MatchesRow.uTxdoneOk : MatchesRow.Statement .uTxdoneOk := rfl
theorem MatchesRow.uRx (apdu : List Byte) : MatchesRow.Statement (.uRx apdu) := by
  simp [MatchesRow.Statement, firstByte, encode, tableRow]
theorem MatchesRow.segMiddle (seq : Seq) (payload : List Byte) : MatchesRow.Statement (.segMiddle seq payload) := encHdr_class false false seq
theorem MatchesRow.segLast (seq : Seq) (payload : List Byte) : MatchesRow.Statement (.segLast seq payload) := encHdr_class false true seq
theorem MatchesRow.segFirst (seq : Seq) (payload : List Byte) : MatchesRow.Statement (.segFirst seq payload) := encHdr_class true false seq
theorem MatchesRow.segSingle (seq : Seq) (payload : List Byte) : MatchesRow.Statement (.segSingle seq payload) := encHdr_class true true seq

end Sys2Proof.Laws
end

