-- ==== Sys2Proof/Tests/Slice0.lean ====
section
/-! SUPPORT. Tests on the vectors of 95_test_vectors.md and words written out from 30_encoding.md, and a witness for the hypotheses of every statement. -/

namespace Sys2Proof.Tests

open Sys2Proof Sys2Proof.Machine

/-! ## Helpers -/

/-- The next state, where there is one. -/
def nextOf (o : Host.Outcome State Fault Refusal) : Option State :=
  match o with
  | .next t => some t
  | _ => none

/-- `MaxApduSize = 4`, `S = 2`: the configuration of 95_test_vectors.md sections 2.2 (TX4), 2.3 (RX6) and 2.5. -/
def small : Config := ⟨4, 2⟩

/-- After reset with `small`. -/
def offline : State := State.resetWith small

/-- After `L.LINK_UP`, nothing recorded as emitted. -/
def online : State := { offline with link := .online }

/-- A buffer that holds these bytes from offset 0 on. -/
def bufferOf (bytes : List Byte) : Memory := Memory.writeBytes Memory.empty 0 bytes

/-- A send of these bytes in flight, `pos` of them handed over, the counter at `seq`. -/
def sending (bytes : List Byte) (pos : Nat) (seq : Seq) : State :=
  { online with
    txBusy := true, txBuf := bufferOf bytes, txLen := bytes.length, txPos := pos, txSeq := seq }

/-- A reassembly in progress of these bytes, the last accepted number `seq`. -/
def assembling (bytes : List Byte) (seq : Seq) : State :=
  { online with rxActive := true, rxBuf := bufferOf bytes, rxLen := bytes.length, rxSeq := seq }

/-- Halted with cause 2, as run 2 of 95_test_vectors.md section 2.5 leaves the block. -/
def halted : State := { sending [0x01#8, 0x02#8, 0x03#8] 2 1#6 with fault := 2#4 }

/-! ## Well-formedness: each check refuses an ill-formed term -/

theorem test_wf_config_zero_segment : ¬ (Config.mk 4 0).WellFormed := by decide
theorem test_wf_config_segment_above_apdu : ¬ (Config.mk 4 5).WellFormed := by decide
theorem test_wf_config_bounds : (Config.mk 4 4).WellFormed ∧ (Config.mk 1 1).WellFormed := by decide
theorem test_wf_lTx_empty : (Instr.lTx []).wellFormed small = false := by decide
theorem test_wf_lTx_long : (Instr.lTx [0xC0#8, 1#8, 2#8, 3#8]).wellFormed small = false := by decide
theorem test_wf_uRx_long : (Instr.uRx [1#8, 2#8, 3#8, 4#8, 5#8]).wellFormed small = false := by decide
theorem test_wf_segMiddle_long : (Instr.segMiddle 0#6 [1#8, 2#8, 3#8]).wellFormed small = false := by
  decide
theorem test_wf_segLast_long : (Instr.segLast 0#6 [1#8, 2#8, 3#8]).wellFormed small = false := by
  decide
theorem test_wf_segFirst_long : (Instr.segFirst 0#6 [1#8, 2#8, 3#8]).wellFormed small = false := by
  decide
theorem test_wf_segSingle_long : (Instr.segSingle 0#6 [1#8, 2#8, 3#8]).wellFormed small = false := by
  decide

/-! ## Decoding: a word written out from 30_encoding.md for every row -/

/-- R77 and R78: the sixteen input codes, port in bit 3, kind in bits 2..0. -/
theorem test_decode_lLinkDown : decode (.evtIn ⟨0b0000#4, []⟩) = .ok .lLinkDown := rfl
theorem test_decode_lLinkUp : decode (.evtIn ⟨0b0001#4, []⟩) = .ok .lLinkUp := rfl
theorem test_decode_lTxdoneFail : decode (.evtIn ⟨0b0010#4, []⟩) = .ok .lTxdoneFail := rfl
theorem test_decode_lTxdoneOk : decode (.evtIn ⟨0b0011#4, []⟩) = .ok .lTxdoneOk := rfl
theorem test_decode_lRx : decode (.evtIn ⟨0b0100#4, [0x80#8, 0xAA#8]⟩) = .ok (.lRx [0x80#8, 0xAA#8]) :=
  rfl
theorem test_decode_uSend : decode (.evtIn ⟨0b1100#4, [0x09#8]⟩) = .ok (.uSend [0x09#8]) := rfl
theorem test_decode_illegalIn5 : decode (.evtIn ⟨0b0101#4, []⟩) = .ok .illegalIn5 := rfl
theorem test_decode_illegalIn6 : decode (.evtIn ⟨0b0110#4, []⟩) = .ok .illegalIn6 := rfl
theorem test_decode_illegalIn7 : decode (.evtIn ⟨0b0111#4, []⟩) = .ok .illegalIn7 := rfl
theorem test_decode_illegalIn8 : decode (.evtIn ⟨0b1000#4, []⟩) = .ok .illegalIn8 := rfl
theorem test_decode_illegalIn9 : decode (.evtIn ⟨0b1001#4, []⟩) = .ok .illegalIn9 := rfl
theorem test_decode_illegalInA : decode (.evtIn ⟨0b1010#4, []⟩) = .ok .illegalInA := rfl
theorem test_decode_illegalInB : decode (.evtIn ⟨0b1011#4, []⟩) = .ok .illegalInB := rfl
theorem test_decode_illegalInD : decode (.evtIn ⟨0b1101#4, []⟩) = .ok .illegalInD := rfl
theorem test_decode_illegalInE : decode (.evtIn ⟨0b1110#4, []⟩) = .ok .illegalInE := rfl
theorem test_decode_illegalInF : decode (.evtIn ⟨0b1111#4, []⟩) = .ok .illegalInF := rfl
/-- R77: the six output codes. -/
theorem test_decode_lTx : decode (.evtOut ⟨0b0100#4, [0xC0#8, 0x01#8]⟩) = .ok (.lTx [0xC0#8, 0x01#8]) :=
  rfl
theorem test_decode_uLinkDown : decode (.evtOut ⟨0b1000#4, []⟩) = .ok .uLinkDown := rfl
theorem test_decode_uLinkUp : decode (.evtOut ⟨0b1001#4, []⟩) = .ok .uLinkUp := rfl
theorem test_decode_uTxdoneFail : decode (.evtOut ⟨0b1010#4, []⟩) = .ok .uTxdoneFail := rfl
theorem test_decode_uTxdoneOk : decode (.evtOut ⟨0b1011#4, []⟩) = .ok .uTxdoneOk := rfl
theorem test_decode_uRx : decode (.evtOut ⟨0b1100#4, [0xAA#8]⟩) = .ok (.uRx [0xAA#8]) := rfl
/-- R72 with the bytes of 95_test_vectors.md sections 1.1 and 2.1. -/
theorem test_decode_segMiddle :
    decode (.tpdu [0b00000001#8, 0xCC#8, 0xDD#8]) = .ok (.segMiddle 1#6 [0xCC#8, 0xDD#8]) := rfl
theorem test_decode_segLast : decode (.tpdu [0b01000010#8, 0xEE#8]) = .ok (.segLast 2#6 [0xEE#8]) := rfl
theorem test_decode_segFirst :
    decode (.tpdu [0b10000000#8, 0xAA#8, 0xBB#8]) = .ok (.segFirst 0#6 [0xAA#8, 0xBB#8]) := rfl
theorem test_decode_segSingle :
    decode (.tpdu [0b11111111#8, 0x00#8, 0xFF#8]) = .ok (.segSingle 63#6 [0x00#8, 0xFF#8]) := rfl
theorem test_decode_strayOperand : decode (.evtIn ⟨0b0011#4, [0x00#8]⟩) = .error .strayOperand := rfl
theorem test_decode_notAnOutputCode : decode (.evtOut ⟨0b0000#4, []⟩) = .error .notAnOutputCode := rfl
theorem test_decode_noHeader : decode (.tpdu []) = .error .noHeader := rfl

/-- The header table of 95_test_vectors.md section 2.1. -/
theorem test_header_table :
    [0x00, 0x01, 0x05, 0x3F, 0x40, 0x42, 0x7F, 0x80, 0xA0, 0xBE, 0xBF, 0xC0, 0xC5, 0xFF].map
        (fun h => decHdr (BitVec.ofNat 8 h)) =
      [(false, false, 0#6), (false, false, 1#6), (false, false, 5#6), (false, false, 63#6),
       (false, true, 0#6), (false, true, 2#6), (false, true, 63#6),
       (true, false, 0#6), (true, false, 32#6), (true, false, 62#6), (true, false, 63#6),
       (true, true, 0#6), (true, true, 5#6), (true, true, 63#6)] := by decide

/-- The `ENC_SEG` line of 95_test_vectors.md section 2.1. -/
theorem test_encSeg :
    encSeg true true 0#6 [] = [0xC0#8] ∧ encSeg false false 1#6 [0xCC#8, 0xDD#8] = [0x01#8, 0xCC#8, 0xDD#8] ∧
      encSeg true false 62#6 [0x10#8] = [0xBE#8, 0x10#8] ∧ encSeg false true 63#6 [] = [0x7F#8] := by
  decide

/-! ## The host's words -/

theorem test_tableWord_input : decodeTableWord 8 0x3 = some .lTxdoneOk := by decide
theorem test_tableWord_illegal : decodeTableWord 8 0xF = some .illegalInF := by decide
theorem test_tableWord_segment : decodeTableWord 8 0xC5 = some (.segSingle 5#6 []) := by decide
theorem test_tableWord_operand : decodeTableWord 24 0xBBAA0C = some (.uSend [0xAA#8, 0xBB#8]) := by decide

/-- Placed after reset, `L.LINK_UP` is the very next step: Online (R155). -/
theorem test_withFetchWord_linkUp :
    (nextOf (step (State.reset.withFetchWord 8 0x1))).map (fun t => (t.link, t.outputs, t.inputs)) =
      some (Link.online, [OutEvent.uLinkUp], []) := by decide

/-- Placed after reset, a segment arrives while Offline: cause 4 (R131). -/
theorem test_withFetchWord_segment :
    (nextOf (step (State.reset.withFetchWord 8 0xC0))).map (fun t => t.fault) = some 4#4 := by decide

/-! ## One step of each row (95_test_vectors.md sections 2.2 to 2.5) -/

/-- TX4: `U.SEND [01 02 03 04]` is accepted and emits `L.TX [80 01 02]`. -/
theorem test_uSend_accepted :
    (nextOf (exec (.uSend [1#8, 2#8, 3#8, 4#8]) online)).map
        (fun t => (t.outputs, t.txSeq, t.txPos, t.txLen, t.txBusy)) =
      some ([.lTx [0x80#8, 1#8, 2#8]], 1#6, 2, 4, true) := by decide

/-- TX1: the empty APDU at SEQ 7 emits `L.TX [C7]`. -/
theorem test_uSend_empty :
    (nextOf (exec (.uSend []) { online with txSeq := 7#6 })).map
        (fun t => (t.outputs, t.txSeq, t.txPos, t.txLen, t.txBusy)) =
      some ([.lTx [0xC7#8]], 8#6, 0, 0, true) := by decide

/-- Section 1.1 (a): the third segment of the scenario is `[42 EE]`. -/
theorem test_lTxdoneOk_last_chunk :
    (nextOf (exec .lTxdoneOk (sending [0xAA#8, 0xBB#8, 0xCC#8, 0xDD#8, 0xEE#8] 4 2#6 |>
        fun s => { s with cfg := ⟨2048, 2⟩ }))).map (fun t => (t.outputs, t.txSeq, t.txPos)) =
      some ([.lTx [0x42#8, 0xEE#8]], 3#6, 5) := by decide

/-- P3 step 4: the answer to the last segment reports success. -/
theorem test_lTxdoneOk_reports :
    (nextOf (exec .lTxdoneOk (sending [1#8, 2#8, 3#8] 3 2#6))).map
        (fun t => (t.outputs, t.txSeq, t.txBusy, t.txLen, t.txPos)) =
      some ([.uTxdoneOk], 2#6, false, 0, 0) := by decide

/-- TX3: failure after the first segment keeps SEQ 3. -/
theorem test_lTxdoneFail_keeps_counter :
    (nextOf (exec .lTxdoneFail (sending [4#8, 5#8, 6#8] 2 3#6))).map
        (fun t => (t.outputs, t.txSeq, t.txBusy, t.txLen, t.txPos)) =
      some ([.uTxdoneFail], 3#6, false, 0, 0) := by decide

/-- Section 2.5: a result with no send in flight is cause 6. -/
theorem test_lTxdoneFail_idle : (nextOf (exec .lTxdoneFail offline)).map (fun t => t.fault) = some 6#4 := by
  decide

/-- LG1: `L.LINK_UP` sets Online and the counter to 0. -/
theorem test_lLinkUp :
    (nextOf (exec .lLinkUp { offline with txSeq := 1#6 })).map (fun t => (t.link, t.txSeq, t.outputs)) =
      some (.online, 0#6, [.uLinkUp]) := by decide

/-- LG1: `L.LINK_DOWN` drops both paths silently and keeps the counter. -/
theorem test_lLinkDown :
    (nextOf (exec .lLinkDown { sending [1#8] 1 1#6 with
        rxActive := true, rxBuf := bufferOf [0xAA#8, 0xBB#8], rxLen := 2 })).map
        (fun t => ((t.link, t.txBusy, t.txSeq), t.rxActive, t.rxLen, t.outputs)) =
      some ((Link.offline, false, 1#6), false, 0, [.uLinkDown]) := by decide

/-- RX7: 1 + S bytes are accepted, one more is cause 5. -/
theorem test_lRx_longest :
    (nextOf (exec (.lRx [0x80#8, 1#8, 2#8]) online)).map (fun t => (t.fault, t.rxLen)) = some (0#4, 2) := by
  decide
theorem test_lRx_oversize :
    (nextOf (exec (.lRx [0x80#8, 1#8, 2#8, 3#8]) online)).map (fun t => (t.fault, t.rxLen)) =
      some (5#4, 0) := by decide

/-- RX2: a new FIR at SEQ 32 replaces the partial buffer. -/
theorem test_segFirst_replaces :
    (nextOf (exec (.segFirst 32#6 [3#8]) (assembling [1#8, 2#8] 5#6))).map
        (fun t => (t.rxActive, t.rxSeq, t.rxBuf, t.outputs)) = some (true, 32#6, [(0, 3#8)], []) := by decide

/-- RX2: `SEG_SINGLE` wins over the partial buffer. -/
theorem test_segSingle_wins :
    (nextOf (exec (.segSingle 9#6 [0xAA#8]) (assembling [3#8, 4#8, 5#8] 33#6))).map
        (fun t => (t.rxActive, t.rxSeq, t.rxBuf, t.outputs)) = some (false, 0#6, [], [.uRx [0xAA#8]]) := by
  decide

/-- RX4: 0 follows 63. -/
theorem test_segMiddle_wraps :
    (nextOf (exec (.segMiddle 0#6 [0x30#8]) (assembling [0x10#8, 0x20#8] 63#6))).map
        (fun t => (t.rxActive, t.rxSeq, t.rxBuf.map Prod.snd)) =
      some (true, 0#6, [0x10#8, 0x20#8, 0x30#8]) := by decide

/-- RX5: a duplicate number aborts. -/
theorem test_segMiddle_duplicate :
    (nextOf (exec (.segMiddle 0#6 [0xCC#8, 0xDD#8]) (assembling [0xAA#8, 0xBB#8] 0#6))).map
        (fun t => (t.rxActive, t.rxSeq, t.rxBuf, t.outputs)) = some (false, 0#6, [], []) := by decide

/-- RX6: the right number but 5 bytes in 4 aborts without a delivery. -/
theorem test_segLast_too_big :
    (nextOf (exec (.segLast 2#6 [5#8]) (assembling [1#8, 2#8, 3#8, 4#8] 1#6))).map
        (fun t => (t.rxActive, t.rxLen, t.outputs)) = some (false, 0, []) := by decide

/-- RX6: an empty last segment delivers exactly `MaxApduSize` bytes. -/
theorem test_segLast_delivers_full :
    (nextOf (exec (.segLast 19#6 []) (assembling [1#8, 2#8, 3#8, 4#8] 18#6))).map
        (fun t => (t.rxActive, t.rxLen, t.outputs)) = some (false, 0, [.uRx [1#8, 2#8, 3#8, 4#8]]) := by
  decide

/-- R78 and section 2.5: every illegal code is cause 9, and nothing is emitted. -/
theorem test_illegal_codes :
    [Instr.illegalIn5, .illegalIn6, .illegalIn7, .illegalIn8, .illegalIn9, .illegalInA, .illegalInB,
        .illegalInD, .illegalInE, .illegalInF].map (fun i => nextOf (exec i offline)) =
      List.replicate 10 (some { offline with fault := 9#4 }) := by decide

/-- R160 to R164: an output row is the emission of its output event. -/
theorem test_output_rows :
    [Instr.lTx [0xC0#8], .uRx [], .uTxdoneOk, .uTxdoneFail, .uLinkUp, .uLinkDown].map
        (fun i => (nextOf (exec i online)).map (fun t => t.outputs)) =
      [some [.lTx [0xC0#8]], some [.uRx []], some [.uTxdoneOk], some [.uTxdoneFail], some [.uLinkUp],
        some [.uLinkDown]] := by decide

/-- The model's own faults can be reached from states that no run reaches: a read of a byte that holds
no value (R55) and an access beyond `MaxApduSize` (R54). -/
theorem test_unwrittenByte :
    exec .lTxdoneOk { online with txBusy := true, txLen := 1 } = .fault .unwrittenByte := rfl
theorem test_outsideBuffer :
    exec .lTxdoneOk { online with txBusy := true, txLen := 5 } = .fault .outsideBuffer := rfl
theorem test_operandOutsideFormat : exec (.lTx []) online = .refused .operandOutsideFormat := rfl
theorem test_undecodable :
    step { online with inputs := [⟨0x1#4, [0#8]⟩] } = .refused (.undecodable .strayOperand) := rfl

/-! ## Witnesses: for every statement with hypotheses, a state and operands that meet them together -/

/-- An event that may be interleaved with a send: an `L.RX` within its bound. -/
theorem lRx_allowed (s : State) (segment : List Byte)
    (h : segment.length ≤ 1 + s.cfg.maxSegmentUserDataSize) :
    Instr.lRx segment = .lTxdoneOk ∨
      ∃ b, Instr.lRx segment = .lRx b ∧ b.length ≤ 1 + s.cfg.maxSegmentUserDataSize :=
  .inr ⟨segment, rfl, h⟩

theorem witness_EncodeOfDecodeIsTheWord :
    (decode (.tpdu [0x42#8, 0xEE#8]) = .ok (.segLast 2#6 [0xEE#8]) ∧
      (Instr.segLast 2#6 [0xEE#8]).isIllegal = false) ∧
    (decode (.evtIn ⟨0xB#4, [0x01#8]⟩) = .ok .illegalInB ∧ Instr.illegalInB.isIllegal = true) :=
  ⟨⟨rfl, rfl⟩, rfl, rfl⟩

theorem witness_SegmentCodecLaws :
    1 ≤ [0xC0#8].length ∧ decSeg [0xC0#8] = some { fir := true, fin := true, seq := 0#6, payload := [] } := by
  decide

theorem witness_HeaderClassIsTheTwoTopBits :
    (0x00#8 &&& 0xC0#8 = 0x00#8 ∧ 0x3F#8 &&& 0xC0#8 = 0x00#8) ∧
    (0x40#8 &&& 0xC0#8 = 0x40#8 ∧ 0x7F#8 &&& 0xC0#8 = 0x40#8) ∧
    (0x80#8 &&& 0xC0#8 = 0x80#8 ∧ 0xBF#8 &&& 0xC0#8 = 0x80#8) ∧
    (0xC0#8 &&& 0xC0#8 = 0xC0#8 ∧ 0xFF#8 &&& 0xC0#8 = 0xC0#8) := by decide

theorem witness_StepRunsDecodedEvent :
    { online with inputs := [⟨0xC#4, [0x01#8]⟩, ⟨0x3#4, []⟩] }.inputs = ⟨0xC#4, [0x01#8]⟩ :: [⟨0x3#4, []⟩] ∧
      decode (.evtIn ⟨0xC#4, [0x01#8]⟩) = .ok (.uSend [0x01#8]) := ⟨rfl, rfl⟩

theorem witness_StepHoldsStateWithoutInput : State.reset.inputs = [] := rfl

theorem witness_QueuedRunIsEventRun :
    [Transaction.mk 0x1#4 [], ⟨0xC#4, [0x01#8]⟩, ⟨0x3#4, []⟩].map Encoded.evtIn =
      [Instr.lLinkUp, .uSend [0x01#8], .lTxdoneOk].map encode := by decide

theorem witness_IllegalInputCodesRaise :
    { offline with inputs := [⟨0x5#4, []⟩] }.Running ∧ { offline with inputs := [⟨0xF#4, [0#8]⟩] }.Running ∧
      0x5#4 ∈ [0x5#4, 0x6#4, 0x7#4, 0x8#4, 0x9#4, 0xA#4, 0xB#4, 0xD#4, 0xE#4, 0xF#4] ∧
      0xF#4 ∈ [0x5#4, 0x6#4, 0x7#4, 0x8#4, 0x9#4, 0xA#4, 0xB#4, 0xD#4, 0xE#4, 0xF#4] := by decide

/-- The premises of IllegalEventsComplete and of OutputRowsEmit on the state. -/
theorem witness_IllegalEventsComplete : State.reset.Running ∧ offline.Running ∧ online.Running := by decide

/-- The operands of OutputRowsEmit at the ends of their ranges: 1 and 1 + S bytes, 0 and MaxApduSize. -/
theorem witness_OutputRowsEmit :
    online.Running ∧ small.TxSegmentFits [0xC0#8] ∧ small.TxSegmentFits [0xC0#8, 1#8, 2#8] ∧
      small.ApduFits [] ∧ small.ApduFits [1#8, 2#8, 3#8, 4#8] := by decide

theorem witness_SendTakesApduAndEmitsFirstSegment_offline : offline.Running ∧ offline.link = .offline := by
  decide
theorem witness_SendTakesApduAndEmitsFirstSegment_busy :
    (sending [1#8, 2#8, 3#8] 2 1#6).Running ∧ (sending [1#8, 2#8, 3#8] 2 1#6).link = .online ∧
      (sending [1#8, 2#8, 3#8] 2 1#6).txBusy = true := by decide
theorem witness_SendTakesApduAndEmitsFirstSegment_oversize :
    online.Running ∧ online.link = .online ∧ online.txBusy = false ∧
      online.cfg.maxApduSize < [1#8, 2#8, 3#8, 4#8, 5#8].length := by decide
theorem witness_SendTakesApduAndEmitsFirstSegment_accepted :
    online.Running ∧ online.link = .online ∧ online.txBusy = false ∧
      [1#8, 2#8, 3#8, 4#8].length ≤ online.cfg.maxApduSize := by decide

theorem witness_TxdoneOkSendsNextOrReports_idle : online.Running ∧ online.txBusy = false := by decide
theorem witness_TxdoneOkSendsNextOrReports_next :
    let s := sending [1#8, 2#8, 3#8, 4#8] 2 1#6
    s.Running ∧ s.txBusy = true ∧ s.txPos < s.txLen ∧ s.txLen ≤ s.cfg.maxApduSize ∧
      [1#8, 2#8, 3#8, 4#8].length = s.txLen ∧
      ∀ k, k < s.txLen → Memory.read s.txBuf k = [1#8, 2#8, 3#8, 4#8][k]? := by decide
theorem witness_TxdoneOkSendsNextOrReports_done :
    let s := sending [1#8, 2#8, 3#8, 4#8] 4 2#6
    s.Running ∧ s.txBusy = true ∧ s.txPos = s.txLen := by decide
/-- The empty APDU: `tx_pos = tx_len = 0` in flight. -/
theorem witness_TxdoneOkSendsNextOrReports_empty :
    (sending [] 0 1#6).Running ∧ (sending [] 0 1#6).txBusy = true ∧
      (sending [] 0 1#6).txPos = (sending [] 0 1#6).txLen := by decide

theorem witness_TxdoneFailEndsSend_idle : offline.Running ∧ offline.txBusy = false := by decide
theorem witness_TxdoneFailEndsSend_busy :
    (sending [1#8, 2#8, 3#8] 2 1#6).Running ∧ (sending [1#8, 2#8, 3#8] 2 1#6).txBusy = true := by decide

/-- A chunk that is not the last, the last one, and the empty APDU. -/
theorem witness_ChunksPartitionTheApdu :
    small.WellFormed ∧ 0 + 1 < segmentCount small 3 ∧ segmentCount small 4 = 2 ∧
      0 - (segmentCount small 0 - 1) * small.maxSegmentUserDataSize = 0 := by decide

/-- Closed form: all answers positive, an `L.RX` of the greatest length between them. -/
theorem witness_SendEmitsItsSegmentsInOrder :
    online.Running ∧ online.Inv ∧ online.link = .online ∧ online.txBusy = false ∧
      [1#8, 2#8, 3#8, 4#8].length ≤ online.cfg.maxApduSize ∧
      (∀ e ∈ [Instr.lTxdoneOk, .lRx [0x80#8, 1#8, 2#8], .lTxdoneOk], e = .lTxdoneOk ∨
        ∃ b, e = .lRx b ∧ b.length ≤ 1 + online.cfg.maxSegmentUserDataSize) ∧
      [Instr.lTxdoneOk, .lRx [0x80#8, 1#8, 2#8], .lTxdoneOk].count .lTxdoneOk =
        segmentCount online.cfg [1#8, 2#8, 3#8, 4#8].length := by
  refine ⟨by decide, by decide, rfl, rfl, by decide, fun e he => ?_, by decide⟩
  rcases List.mem_cons.mp he with rfl | he
  · exact .inl rfl
  rcases List.mem_cons.mp he with rfl | he
  · exact lRx_allowed online _ (by decide)
  · exact .inl (List.mem_singleton.mp he)

/-- The premises of FailedSendStopsAfterItsSegments and of LinkDownAbortsSendSilently, at j = N - 1. -/
theorem witness_FailedSendStopsAfterItsSegments :
    online.Running ∧ online.Inv ∧ online.link = .online ∧ online.txBusy = false ∧
      [1#8, 2#8, 3#8].length ≤ online.cfg.maxApduSize ∧
      (∀ e ∈ [Instr.lRx [], .lTxdoneOk], e = .lTxdoneOk ∨
        ∃ b, e = .lRx b ∧ b.length ≤ 1 + online.cfg.maxSegmentUserDataSize) ∧
      [Instr.lRx [], .lTxdoneOk].count .lTxdoneOk < segmentCount online.cfg [1#8, 2#8, 3#8].length := by
  refine ⟨by decide, by decide, rfl, rfl, by decide, fun e he => ?_, by decide⟩
  rcases List.mem_cons.mp he with rfl | he
  · exact lRx_allowed online _ (by decide)
  · exact .inl (List.mem_singleton.mp he)

/-- The run after the abort, in LinkDownAbortsSendSilently. -/
theorem witness_LinkDownAbortsSendSilently :
    (∀ e ∈ [Instr.lLinkUp, .lRx [0xC0#8]], e.isInput = true ∧ ∀ b, e ≠ .uSend b) ∧
      (nextOf (runEvents [.uSend [1#8], .lLinkDown, .lLinkUp, .lRx [0xC0#8]] online)).isSome = true := by
  refine ⟨fun e he => ?_, by decide⟩
  rcases List.mem_cons.mp he with rfl | he
  · exact ⟨rfl, fun b => by simp⟩
  · rw [List.mem_singleton.mp he]; exact ⟨rfl, fun b => by simp⟩

/-- A result and then the next segment; and a failure and then a new send. -/
theorem witness_FlowGateBetweenSegments_between :
    let s := sending [1#8, 2#8, 3#8] 2 1#6
    s.txBusy = true ∧
      (∃ t, runEvents [.lTxdoneOk] s = .next t ∧ ∃ b, OutEvent.lTx b ∈ newOutputs s t) ∧
      (∃ t, runEvents [.lTxdoneFail, .uSend [9#8]] s = .next t ∧ ∃ b, OutEvent.lTx b ∈ newOutputs s t) :=
  ⟨rfl, ⟨_, rfl, [0x41#8, 3#8], by decide⟩, _, rfl, [0xC1#8, 9#8], by decide⟩
theorem witness_FlowGateBetweenSegments_step :
    online.Inv ∧ (Instr.uSend [1#8]).isInput = true ∧
      ∃ t, exec (.uSend [1#8]) online = .next t ∧ OutEvent.lTx [0xC0#8, 1#8] ∈ newOutputs online t :=
  ⟨by decide, rfl, _, rfl, by decide⟩

theorem witness_ChunksStartAtMultiplesOfS :
    let s := sending [1#8, 2#8, 3#8, 4#8] 2 1#6
    s.Inv ∧ s.ChunkAligned ∧ ∃ t, exec .lTxdoneOk s = .next t := ⟨by decide, by decide, _, rfl⟩

theorem witness_ReceiveGateAndDispatch_offline : offline.Running ∧ offline.link = .offline := by decide
theorem witness_ReceiveGateAndDispatch_overlong :
    online.Running ∧ online.link = .online ∧
      1 + online.cfg.maxSegmentUserDataSize < [0x80#8, 1#8, 2#8, 3#8].length := by decide
theorem witness_ReceiveGateAndDispatch_classes :
    online.Running ∧ online.link = .online ∧
      ([] : List Byte).length ≤ 1 + online.cfg.maxSegmentUserDataSize ∧
      [0x80#8, 1#8, 2#8].length ≤ 1 + online.cfg.maxSegmentUserDataSize ∧
      ((0x80#8).getLsbD 7 = true ∧ (0x80#8).getLsbD 6 = false) ∧
      ((0xFF#8).getLsbD 7 = true ∧ (0xFF#8).getLsbD 6 = true) ∧
      ((0x3F#8).getLsbD 7 = false ∧ (0x3F#8).getLsbD 6 = false) ∧
      ((0x40#8).getLsbD 7 = false ∧ (0x40#8).getLsbD 6 = true) := by decide

/-- The premises of EmptyReceiveChangesNothing, with a reassembly in progress. -/
theorem witness_EmptyReceiveChangesNothing :
    (assembling [7#8] 10#6).Running ∧ (assembling [7#8] 10#6).link = .online := by decide

/-- The premises of FirstSegmentStartsReassembly and SingleSegmentDelivers, with exactly S bytes. -/
theorem witness_FirstSegmentStartsReassembly :
    (assembling [7#8] 10#6).Running ∧ (assembling [7#8] 10#6).link = .online ∧
      [1#8, 2#8].length ≤ (assembling [7#8] 10#6).cfg.maxSegmentUserDataSize := by decide
theorem witness_SingleSegmentDelivers :
    online.Running ∧ online.link = .online ∧ ([] : List Byte).length ≤ online.cfg.maxSegmentUserDataSize := by
  decide

theorem witness_MiddleSegmentAppendsOrDrops_idle :
    online.Running ∧ online.link = .online ∧ [1#8, 2#8].length ≤ online.cfg.maxSegmentUserDataSize ∧
      online.rxActive = false := by decide
/-- Number 63 followed by 0, and exactly `MaxApduSize` bytes. -/
theorem witness_MiddleSegmentAppendsOrDrops_accept :
    let s := assembling [1#8, 2#8] 63#6
    s.Running ∧ s.link = .online ∧ [3#8, 4#8].length ≤ s.cfg.maxSegmentUserDataSize ∧ s.rxActive = true ∧
      0#6 = inc6 s.rxSeq ∧ s.rxLen + [3#8, 4#8].length ≤ s.cfg.maxApduSize := by decide
/-- A wrong number; and the right one with one byte too many. -/
theorem witness_MiddleSegmentAppendsOrDrops_abort :
    let s := assembling [1#8, 2#8, 3#8] 63#6
    s.Running ∧ s.link = .online ∧ s.rxActive = true ∧
      ¬ (1#6 = inc6 s.rxSeq ∧ s.rxLen + [3#8].length ≤ s.cfg.maxApduSize) ∧
      ¬ (0#6 = inc6 s.rxSeq ∧ s.rxLen + [3#8, 4#8].length ≤ s.cfg.maxApduSize) := by decide

theorem witness_LastSegmentDeliversOrDrops_idle :
    online.Running ∧ online.link = .online ∧ [1#8, 2#8].length ≤ online.cfg.maxSegmentUserDataSize ∧
      online.rxActive = false := by decide
theorem witness_LastSegmentDeliversOrDrops_accept :
    let s := assembling [1#8, 2#8] 63#6
    s.Running ∧ s.link = .online ∧ [3#8, 4#8].length ≤ s.cfg.maxSegmentUserDataSize ∧ s.rxActive = true ∧
      0#6 = inc6 s.rxSeq ∧ s.rxLen + [3#8, 4#8].length ≤ s.cfg.maxApduSize ∧
      [1#8, 2#8].length = s.rxLen ∧ ∀ k, k < s.rxLen → Memory.read s.rxBuf k = [1#8, 2#8][k]? := by decide
theorem witness_LastSegmentDeliversOrDrops_abort :
    let s := assembling [1#8, 2#8, 3#8] 63#6
    s.Running ∧ s.link = .online ∧ [3#8, 4#8].length ≤ s.cfg.maxSegmentUserDataSize ∧ s.rxActive = true ∧
      ¬ (63#6 = inc6 s.rxSeq ∧ s.rxLen + [3#8, 4#8].length ≤ s.cfg.maxApduSize) ∧
      ¬ (0#6 = inc6 s.rxSeq ∧ s.rxLen + [3#8, 4#8].length ≤ s.cfg.maxApduSize) := by decide

theorem witness_OverlongClassSegmentsRaise :
    (offline.Running ∧ offline.link = .offline) ∧ online.Running ∧ online.link = .online ∧
      online.cfg.maxSegmentUserDataSize < [1#8, 2#8, 3#8].length := by decide

theorem witness_EmptiedBuffersHoldNoByte_send :
    online.Running ∧ online.txBusy = false ∧
      ∃ t, exec (.uSend [1#8]) online = .next t ∧ t.txBusy = true := ⟨by decide, rfl, _, rfl, rfl⟩
theorem witness_EmptiedBuffersHoldNoByte_first :
    online.Running ∧ ∃ t, exec (.segFirst 0#6 [1#8]) online = .next t ∧ t.fault = 0#4 :=
  ⟨by decide, _, rfl, rfl⟩
theorem witness_EmptiedBuffersHoldNoByte_ends :
    (∃ t, exec .lTxdoneFail (sending [1#8] 1 1#6) = .next t ∧ t.txBusy = false) ∧
    (∃ t, exec (.segMiddle 9#6 []) (assembling [1#8] 0#6) = .next t ∧ t.rxActive = false) ∧
    (∃ t, exec .lLinkUp offline = .next t ∧ t.fault = 0#4) ∧
    (∃ t, exec (.segSingle 9#6 []) (assembling [1#8] 0#6) = .next t ∧ t.fault = 0#4) :=
  ⟨⟨_, rfl, rfl⟩, ⟨_, rfl, rfl⟩, ⟨_, rfl, rfl⟩, _, rfl, rfl⟩

/-- Three segments, the whole message exactly `MaxApduSize` bytes, a send interleaved. -/
theorem witness_ReassemblyDeliversTheMessage :
    let payloads : List (List Byte) := [[1#8, 2#8], [], [3#8, 4#8]]
    let es := [Instr.lRx [0xBF#8, 1#8, 2#8], .uSend [9#8], .lRx [0x00#8], .lTxdoneOk]
    online.Running ∧ online.Inv ∧ online.link = .online ∧ payloads ≠ [] ∧
      (∀ p ∈ payloads, p.length ≤ online.cfg.maxSegmentUserDataSize) ∧
      payloads.flatten.length ≤ online.cfg.maxApduSize ∧
      (∀ e ∈ es, isTransmit e = true ∨ ∃ b, e = .lRx b) ∧
      es.filter isReceive = (messageSegments 63#6 payloads).dropLast.map Instr.lRx ∧
      ∃ u, runEvents es online = .next u ∧ u.fault = 0#4 := by
  refine ⟨by decide, by decide, rfl, by decide, by decide, by decide, fun e he => ?_, by decide, _, rfl, rfl⟩
  rcases List.mem_cons.mp he with rfl | he
  · exact .inr ⟨_, rfl⟩
  rcases List.mem_cons.mp he with rfl | he
  · exact .inl rfl
  rcases List.mem_cons.mp he with rfl | he
  · exact .inr ⟨_, rfl⟩
  · rw [List.mem_singleton.mp he]; exact .inl rfl

/-- A skipped number; and the right number with a message one byte too long. -/
theorem witness_BrokenReassemblyIsDroppedSilently :
    let payloads : List (List Byte) := [[1#8, 2#8], [3#8]]
    let rest : List (Bool × Seq × List Byte) := [(true, 3#6, [4#8]), (false, 0#6, [])]
    online.Running ∧ online.Inv ∧ online.link = .online ∧ payloads ≠ [] ∧
      (∀ p ∈ payloads, p.length ≤ online.cfg.maxSegmentUserDataSize) ∧
      payloads.flatten.length ≤ online.cfg.maxApduSize ∧
      [5#8, 6#8].length ≤ online.cfg.maxSegmentUserDataSize ∧
      (∀ r ∈ rest, r.2.2.length ≤ online.cfg.maxSegmentUserDataSize) ∧
      5#6 ≠ 0#6 + BitVec.ofNat 6 payloads.length ∧
      online.cfg.maxApduSize < payloads.flatten.length + [5#8, 6#8].length := by decide

/-- Block B in the middle of another message. -/
theorem witness_SegmentingThenReassemblingIsIdentity :
    let a := online
    let b := assembling [7#8] 10#6
    a.Running ∧ b.Running ∧ a.Inv ∧ b.Inv ∧ a.cfg = b.cfg ∧ a.link = .online ∧ b.link = .online ∧
      a.txBusy = false ∧ [1#8, 2#8, 3#8, 4#8].length ≤ a.cfg.maxApduSize := by decide

/-- The premises of LinkUpInitialisesAndForwards and of LinkDownCancelsAndForwards: running in both link states. -/
theorem witness_LinkUpInitialisesAndForwards :
    (online.Running ∧ online.link = .online) ∧ offline.Running ∧ offline.link = .offline := by decide
theorem witness_LinkDownCancelsAndForwards :
    (offline.Running ∧ offline.link = .offline) ∧
      (sending [1#8, 2#8, 3#8] 2 1#6).Running ∧ (sending [1#8, 2#8, 3#8] 2 1#6).link = .online := by decide

theorem witness_GateTableDecidesFaults :
    (Instr.uSend [1#8]).isInput = true ∧ online.Running ∧ online.Inv := by decide

theorem witness_OneOutputPerStep_halted :
    halted.fault ≠ 0#4 ∧ ∃ t, exec .lTxdoneOk halted = .next t := ⟨by decide, _, rfl⟩
theorem witness_OneOutputPerStep_events :
    (∃ t, exec (.uSend [1#8]) online = .next t ∧ t.fault = 0#4) ∧
    (∃ t, exec .lTxdoneOk (sending [1#8] 1 1#6) = .next t ∧ t.fault = 0#4) ∧
    (∃ t, exec .lTxdoneFail (sending [1#8] 1 1#6) = .next t ∧ t.fault = 0#4) ∧
    (∃ t, exec (.lRx [0xC0#8]) online = .next t ∧ t.fault = 0#4) ∧
    (∃ t, exec .lLinkUp offline = .next t ∧ t.fault = 0#4) ∧
    (∃ t, exec .lLinkDown online = .next t ∧ t.fault = 0#4) :=
  ⟨⟨_, rfl, rfl⟩, ⟨_, rfl, rfl⟩, ⟨_, rfl, rfl⟩, ⟨_, rfl, rfl⟩, ⟨_, rfl, rfl⟩, _, rfl, rfl⟩

theorem witness_OutputsComeFromTheirEvents :
    (online.Inv ∧ ∃ t, exec (.lRx [0xC0#8]) online = .next t ∧ OutEvent.uRx [] ∈ newOutputs online t) ∧
    (let s := sending [1#8] 1 1#6;
      s.Inv ∧ (∃ t, exec .lTxdoneOk s = .next t ∧ OutEvent.uTxdoneOk ∈ newOutputs s t) ∧
      ∃ t, exec .lTxdoneFail s = .next t ∧ OutEvent.uTxdoneFail ∈ newOutputs s t) ∧
    (offline.Inv ∧ ∃ t, exec .lLinkUp offline = .next t ∧ OutEvent.uLinkUp ∈ newOutputs offline t) ∧
    (∃ t, exec .lLinkDown online = .next t ∧ OutEvent.uLinkDown ∈ newOutputs online t) :=
  ⟨⟨by decide, _, rfl, by decide⟩, ⟨by decide, ⟨_, rfl, by decide⟩, _, rfl, by decide⟩,
    ⟨by decide, _, rfl, by decide⟩, _, rfl, by decide⟩

/-- An `L.TX` as the first segment of a send and as the next one. -/
theorem witness_OutputsComeFromTheirEvents_lTx :
    (∃ t, exec (.uSend []) online = .next t ∧ OutEvent.lTx [0xC0#8] ∈ newOutputs online t) ∧
    (let s := sending [1#8, 2#8, 3#8, 4#8] 2 1#6;
      s.Inv ∧ ∃ t, exec .lTxdoneOk s = .next t ∧ OutEvent.lTx [0x41#8, 3#8, 4#8] ∈ newOutputs s t) :=
  ⟨⟨_, rfl, by decide⟩, by decide, _, rfl, by decide⟩

theorem witness_PathsLeaveEachOtherAlone :
    (isTransmit (.uSend [1#8]) = true ∧ ∃ t, exec (.uSend [1#8]) (assembling [1#8] 0#6) = .next t) ∧
    (isReceive (.lRx [0x41#8]) = true ∧ ∃ t, exec (.lRx [0x41#8]) (sending [1#8] 1 1#6) = .next t) ∧
    (Instr.uLinkUp.isInput = false ∧ isReceive .uLinkUp = false ∧ ∃ t, exec .uLinkUp online = .next t) ∧
    (∃ t, exec .lLinkUp offline = .next t ∧ t.link ≠ offline.link) ∧
    (∃ t, exec .lLinkDown online = .next t ∧ t.link ≠ online.link) :=
  ⟨⟨rfl, _, rfl⟩, ⟨rfl, _, rfl⟩, ⟨rfl, rfl, _, rfl⟩, ⟨_, rfl, by decide⟩, _, rfl, by decide⟩

/-- Two different states that agree on one path. -/
theorem witness_PathsDoNotReadEachOther :
    (isTransmit .lTxdoneOk = true ∧
      SameTransmit (sending [1#8] 1 1#6) { sending [1#8] 1 1#6 with rxActive := true, rxSeq := 5#6 }) ∧
    (isReceive (.lRx [0x41#8]) = true ∧
      SameReceive (assembling [1#8] 0#6) { assembling [1#8] 0#6 with txSeq := 9#6 }) := by decide

theorem witness_LinkCycleForgetsEverything :
    (assembling [1#8, 2#8] 3#6).Running ∧ (assembling [1#8, 2#8] 3#6).Inv ∧
      (assembling [1#8, 2#8] 3#6).link = .online := by decide

/-- The premises of HaltedBlockIgnoresEverything and of FaultIsPermanent, with an illegal code pending. -/
theorem witness_HaltedBlockIgnoresEverything :
    { halted with inputs := [⟨0x8#4, []⟩] }.cfg.WellFormed ∧
      { halted with inputs := [⟨0x8#4, []⟩] }.fault ≠ 0#4 ∧
      { halted with inputs := [⟨0x8#4, []⟩] }.inputs = ⟨0x8#4, []⟩ :: [] := by decide
theorem witness_FaultIsPermanent : halted.cfg.WellFormed ∧ halted.fault ≠ 0#4 := by decide

/-- The smallest and the greatest cause. -/
theorem witness_ViolationWritesOnlyTheCause :
    offline.fault = 0#4 ∧ (∃ t, exec (.uSend []) offline = .next t ∧ t.fault ≠ 0#4) ∧
      ∃ t, exec .illegalInF offline = .next t ∧ t.fault ≠ 0#4 :=
  ⟨rfl, ⟨_, rfl, by decide⟩, _, rfl, by decide⟩

/-- Offline; Online and idle with over-long operands; Online and busy; and a valid event. -/
theorem witness_CausesAreTestedInOrder :
    (offline.cfg.WellFormed ∧ offline.fault = 0#4 ∧ offline.link = .offline) ∧
    (online.cfg.WellFormed ∧ online.fault = 0#4 ∧ online.link = .online ∧ online.txBusy = false ∧
      online.cfg.maxApduSize < [1#8, 2#8, 3#8, 4#8, 5#8].length ∧
      1 + online.cfg.maxSegmentUserDataSize < [0x80#8, 1#8, 2#8, 3#8].length) ∧
    ((sending [1#8] 1 1#6).cfg.WellFormed ∧ (sending [1#8] 1 1#6).link = .online ∧
      (sending [1#8] 1 1#6).txBusy = true) ∧
    (halted.cfg.WellFormed ∧ halted.fault ≠ 0#4) ∧
    Instr.illegalInF.isIllegal = true ∧
    validEvent online (.uSend [1#8, 2#8, 3#8, 4#8]) ∧
      ∃ t, exec (.uSend [1#8, 2#8, 3#8, 4#8]) online = .next t :=
  ⟨by decide, by decide, by decide, by decide, rfl, ⟨rfl, rfl, by decide⟩, _, rfl⟩

theorem witness_ProtocolViolationsAreSilent :
    (online.Running ∧ online.link = .online ∧ online.rxActive = false) ∧
    (let s := assembling [1#8, 2#8, 3#8] 63#6;
      s.Running ∧ s.link = .online ∧ s.rxActive = true ∧
        [4#8, 5#8].length ≤ s.cfg.maxSegmentUserDataSize ∧ 63#6 ≠ inc6 s.rxSeq ∧
        s.cfg.maxApduSize < s.rxLen + [4#8, 5#8].length) := by decide

/-- `S = 0`, and `S = MaxApduSize + 1`. -/
theorem witness_IllFormedConfigurationIsRefused :
    (State.resetWith ⟨4, 0⟩).cfg.maxSegmentUserDataSize = 0 ∧
      (State.resetWith ⟨4, 5⟩).cfg.maxApduSize < (State.resetWith ⟨4, 5⟩).cfg.maxSegmentUserDataSize := by
  decide

theorem witness_ResetHasTheSpecValues :
    State.reset ∈ [State.reset, State.resetWith small] ∧
      State.resetWith small ∈ [State.reset, State.resetWith small] ∧ small.WellFormed := by decide

/-- The premises of StepKeepsInvariant, StepKeepsMemoryCanonical and StepKeepsConfiguration. -/
theorem witness_StepKeepsInvariant :
    let s := { assembling [1#8, 2#8] 63#6 with inputs := [⟨0x4#4, [0x00#8, 3#8, 4#8]⟩] }
    s.Inv ∧ Memory.wf s.txBuf = true ∧ Memory.wf s.rxBuf = true ∧ (∃ t, step s = .next t) ∧
      ∃ t, exec (.segMiddle 0#6 [3#8, 4#8]) s = .next t :=
  ⟨by decide, by decide, by decide, ⟨_, rfl⟩, _, rfl⟩

theorem witness_StepKeepsMemoryCanonical :
    let s := { sending [1#8, 2#8, 3#8] 2 1#6 with inputs := [⟨0x3#4, []⟩] }
    Memory.wf s.txBuf = true ∧ Memory.wf s.rxBuf = true ∧ ∃ t, step s = .next t :=
  ⟨by decide, by decide, _, rfl⟩
theorem witness_StepKeepsConfiguration :
    (∃ t, step { online with inputs := [⟨0xC#4, [1#8]⟩] } = .next t) ∧ ∃ t, step State.reset = .next t :=
  ⟨⟨_, rfl⟩, _, rfl⟩

/-- An input row and a class row. -/
theorem witness_EveryInputEventCompletes :
    Instr.lTxdoneOk.isInput = true ∧ isReceive (.segLast 0#6 [1#8]) = true ∧
      (sending [1#8, 2#8, 3#8, 4#8] 2 1#6).Running ∧ (sending [1#8, 2#8, 3#8, 4#8] 2 1#6).Inv ∧
      (assembling [1#8, 2#8, 3#8, 4#8] 63#6).Running ∧ (assembling [1#8, 2#8, 3#8, 4#8] 63#6).Inv := by
  decide

/-- The ghost of R33 counts: a block that emitted two segments unanswered would have 2. -/
theorem test_llOutstanding_counts :
    ([OutEvent.lTx [0x80#8], .lTx [0x41#8]].foldl Neighbours.observe Neighbours.initial).llOutstanding = 2 := by
  decide

theorem witness_ReachableUnfaultedStatesSatisfyR34 :
    small.WellFormed ∧
      (∀ e ∈ [Instr.lLinkUp, .uSend [1#8], .lRx [0x80#8, 2#8]], e.isInput = true) ∧
      ∃ v t, runWatched [Instr.lLinkUp, .uSend [1#8], .lRx [0x80#8, 2#8]] Neighbours.initial
        (State.resetWith small) = some (v, t) ∧ t.fault = 0#4 :=
  ⟨by decide, by decide, _, _, rfl, rfl⟩

/-- A run in keeping with the duties, after which an `L.TXDONE_OK` breaks one. -/
theorem witness_DutifulNeighboursNeverFault :
    small.WellFormed ∧
      KeepsDuties [Instr.lLinkUp, .uSend [1#8], .lTxdoneOk] Neighbours.initial (State.resetWith small) ∧
      ∃ v t, runWatched [Instr.lLinkUp, .uSend [1#8], .lTxdoneOk] Neighbours.initial
        (State.resetWith small) = some (v, t) ∧ ¬ v.mayIssue t.cfg .lTxdoneOk := by
  refine ⟨by decide, ⟨rfl, fun t ht => ?_⟩, _, _, rfl, ?_⟩
  · cases ht
    refine ⟨⟨rfl, rfl, by decide⟩, fun t ht => ?_⟩
    cases ht
    refine ⟨Nat.zero_lt_one, fun t ht => ?_⟩
    trivial
  · exact Nat.lt_irrefl 0

theorem witness_StaleResultIsTakenForTheCurrentSegment :
    let s := sending [7#8] 1 1#6
    s.Running ∧ s.Inv ∧ s.link = .online ∧ s.txBusy = true ∧
      s.cfg.maxSegmentUserDataSize < [1#8, 2#8, 3#8].length ∧
      [1#8, 2#8, 3#8].length ≤ s.cfg.maxApduSize := by decide

end Sys2Proof.Tests
end

namespace Sys2Proof.Machine

/-! ## Sequence numbers (R15) -/

theorem seq_add_toNat (seq : Seq) (k : Nat) :
    (seq + BitVec.ofNat 6 k).toNat = (seq.toNat + k) % 64 := by
  rw [BitVec.toNat_add, BitVec.toNat_ofNat, Nat.add_mod_mod]

theorem inc6_toNat (seq : Seq) : (inc6 seq).toNat = (seq.toNat + 1) % 64 :=
  seq_add_toNat seq 1

/-- Settles O7: both sums are one addition of 6-bit words. -/
theorem sequenceIncrementIsModulo64 : Obligations.SequenceIncrementIsModulo64 :=
  ⟨inc6_toNat, rfl, seq_add_toNat⟩

/-! ## The Facade around every row (R150) -/

/-- Every row of the table is an operation behind the Facade. -/
theorem exec_eq_facade (i : Instr) (s : State) : ∃ o, exec i s = facade s o := by
  cases i <;> exact ⟨_, rfl⟩

theorem facade_of_not_wellFormed {s : State} {o : Host.Outcome State Fault Refusal}
    (h : ¬ s.cfg.WellFormed) : facade s o = .refused .illFormedConfig :=
  if_neg h

/-- Settles O47: the Facade tests the configuration before anything else. -/
theorem illFormedConfigurationIsRefused : Obligations.IllFormedConfigurationIsRefused := by
  intro i s hc
  have hwf : ¬ s.cfg.WellFormed := by rintro ⟨hmin, hmax⟩; omega
  obtain ⟨o, ho⟩ := exec_eq_facade i s
  rw [ho, facade_of_not_wellFormed hwf]

/-! ## One step (R12) -/

theorem step_of_inputs_nil {s : State} (h : s.inputs = []) : step s = .next s := by
  simp only [step, h]

theorem step_of_inputs_cons {s : State} {x : Transaction} {rest : List Transaction}
    (h : s.inputs = x :: rest) : step s = runTransaction x { s with inputs := rest } := by
  simp only [step, h]

theorem runTransaction_of_decode {x : Transaction} {i : Instr} (s : State)
    (h : decode (.evtIn x) = .ok i) : runTransaction x s = exec i s := by
  simp only [runTransaction, h]

/-- The next states of a transaction: the state held while halted, or the next state of the row it
decodes to. -/
theorem runTransaction_next {x : Transaction} {s t : State} (h : runTransaction x s = .next t) :
    (s.Halted ∧ t = s) ∨ ∃ i, decode (.evtIn x) = .ok i ∧ exec i s = .next t := by
  cases hd : decode (.evtIn x) with
  | ok i => exact .inr ⟨i, rfl, runTransaction_of_decode s hd ▸ h⟩
  | error e =>
    simp only [runTransaction, hd] at h
    rcases facade_next h with hheld | ⟨-, hop⟩
    · exact .inl hheld
    · cases hop

/-- Settles O8. -/
theorem stepRunsDecodedEvent : Obligations.StepRunsDecodedEvent := by
  intro s x rest i hin hd
  rw [step_of_inputs_cons hin, runTransaction_of_decode _ hd]

/-! ## What no row writes (R32): the configuration and the pending inputs -/

theorem receiveDecoded_keeps_cfg_inputs {g : Segment} {s t : State}
    (h : receiveDecoded (some g) s = .next t) : t.cfg = s.cfg ∧ t.inputs = s.inputs := by
  rcases receiveDecoded_next h with ⟨-, -, rfl⟩ | ⟨-, -, rfl⟩ | ⟨-, -, rfl⟩ | ⟨-, -, -, -, rfl⟩ |
    ⟨-, -, -, -, a, -, rfl⟩ | ⟨-, -, -, rfl⟩ <;> exact ⟨rfl, rfl⟩

theorem Effect.keeps_cfg_inputs {i : Instr} {s t : State} (h : Effect i s t) :
    t.cfg = s.cfg ∧ t.inputs = s.inputs := by
  cases h with
  | received i g s t hi hl hn ht => exact receiveDecoded_keeps_cfg_inputs ht
  | violation | send | nextChunk | sendDone | sendFailed | linkUp | linkDown | receiveEmpty
  | output => exact ⟨rfl, rfl⟩

theorem exec_keeps_cfg_inputs {i : Instr} {s t : State} (h : exec i s = .next t) :
    t.cfg = s.cfg ∧ t.inputs = s.inputs := by
  rcases exec_next h with ⟨-, rfl⟩ | ⟨-, he⟩
  · exact ⟨rfl, rfl⟩
  · exact he.keeps_cfg_inputs

theorem runTransaction_keeps_cfg_inputs {x : Transaction} {s t : State}
    (h : runTransaction x s = .next t) : t.cfg = s.cfg ∧ t.inputs = s.inputs := by
  rcases runTransaction_next h with ⟨-, rfl⟩ | ⟨i, -, he⟩
  · exact ⟨rfl, rfl⟩
  · exact exec_keeps_cfg_inputs he

/-- Settles O52: a step takes the head of the list, and no row writes the list or the
configuration. -/
theorem stepKeepsConfiguration : Obligations.StepKeepsConfiguration := by
  intro s t h
  cases hin : s.inputs with
  | nil =>
    rw [step_of_inputs_nil hin] at h
    cases h
    exact ⟨rfl, hin⟩
  | cons x rest =>
    rw [step_of_inputs_cons hin] at h
    exact runTransaction_keeps_cfg_inputs h

/-! ## No row reads the pending inputs

Replacing the list before a row or in its answer is the same. So the run of a queue, where each row
stands before the rest of the queue, is the run of its rows with no queue at all. -/

/-- The state with this list of pending inputs. -/
def State.withInputs (q : List Transaction) (s : State) : State := { s with inputs := q }

section
variable (q : List Transaction) (s : State)

@[simp] theorem State.withInputs_link : (s.withInputs q).link = s.link := rfl
@[simp] theorem State.withInputs_txSeq : (s.withInputs q).txSeq = s.txSeq := rfl
@[simp] theorem State.withInputs_txBusy : (s.withInputs q).txBusy = s.txBusy := rfl
@[simp] theorem State.withInputs_txBuf : (s.withInputs q).txBuf = s.txBuf := rfl
@[simp] theorem State.withInputs_txLen : (s.withInputs q).txLen = s.txLen := rfl
@[simp] theorem State.withInputs_txPos : (s.withInputs q).txPos = s.txPos := rfl
@[simp] theorem State.withInputs_rxActive : (s.withInputs q).rxActive = s.rxActive := rfl
@[simp] theorem State.withInputs_rxSeq : (s.withInputs q).rxSeq = s.rxSeq := rfl
@[simp] theorem State.withInputs_rxBuf : (s.withInputs q).rxBuf = s.rxBuf := rfl
@[simp] theorem State.withInputs_rxLen : (s.withInputs q).rxLen = s.rxLen := rfl
@[simp] theorem State.withInputs_fault : (s.withInputs q).fault = s.fault := rfl
@[simp] theorem State.withInputs_cfg : (s.withInputs q).cfg = s.cfg := rfl
@[simp] theorem State.withInputs_inputs : (s.withInputs q).inputs = q := rfl
@[simp] theorem State.withInputs_outputs : (s.withInputs q).outputs = s.outputs := rfl

end

/-- The answer with this list of pending inputs in its next state, if it has one. -/
def answerWithInputs (q : List Transaction) :
    Host.Outcome State Fault Refusal → Host.Outcome State Fault Refusal
  | .next t => .next (t.withInputs q)
  | .fault f => .fault f
  | .refused r => .refused r

section
variable (q : List Transaction) (s : State)

theorem answerWithInputs_ite (p : Prop) [Decidable p] (a b : Host.Outcome State Fault Refusal) :
    answerWithInputs q (if p then a else b) =
      if p then answerWithInputs q a else answerWithInputs q b :=
  apply_ite _ _ _ _

theorem facade_withInputs (o : Host.Outcome State Fault Refusal) :
    facade (s.withInputs q) (answerWithInputs q o) = answerWithInputs q (facade s o) := by
  simp only [facade, answerWithInputs_ite]
  rfl

theorem receiveGate_withInputs (len : Nat) (o : Host.Outcome State Fault Refusal) :
    receiveGate (s.withInputs q) len (answerWithInputs q o) =
      answerWithInputs q (receiveGate s len o) := by
  simp only [receiveGate, answerWithInputs_ite]
  rfl

theorem receiveFirst_withInputs (seq : Seq) (payload : List Byte) :
    receiveFirst seq payload (s.withInputs q) =
      answerWithInputs q (receiveFirst seq payload s) := by
  simp only [receiveFirst, State.withInputs_cfg]
  cases memWrite s.cfg Memory.empty 0 payload <;> rfl

theorem receiveMiddle_withInputs (seq : Seq) (payload : List Byte) :
    receiveMiddle seq payload (s.withInputs q) =
      answerWithInputs q (receiveMiddle seq payload s) := by
  simp only [receiveMiddle, answerWithInputs_ite, State.withInputs_cfg, State.withInputs_rxBuf,
    State.withInputs_rxLen]
  cases memWrite s.cfg s.rxBuf s.rxLen payload <;> rfl

theorem receiveLast_withInputs (seq : Seq) (payload : List Byte) :
    receiveLast seq payload (s.withInputs q) = answerWithInputs q (receiveLast seq payload s) := by
  simp only [receiveLast, answerWithInputs_ite, State.withInputs_cfg, State.withInputs_rxBuf,
    State.withInputs_rxLen]
  cases memRead s.cfg s.rxBuf 0 s.rxLen <;> rfl

theorem receiveDecoded_withInputs (g : Option Segment) :
    receiveDecoded g (s.withInputs q) = answerWithInputs q (receiveDecoded g s) := by
  match g with
  | none => rfl
  | some ⟨true, false, seq, payload⟩ => exact receiveFirst_withInputs q s seq payload
  | some ⟨true, true, _, payload⟩ => rfl
  | some ⟨false, false, seq, payload⟩ => exact receiveMiddle_withInputs q s seq payload
  | some ⟨false, true, seq, payload⟩ => exact receiveLast_withInputs q s seq payload

theorem execLRx_withInputs (segment : List Byte) :
    execLRx segment (s.withInputs q) = answerWithInputs q (execLRx segment s) := by
  simp only [execLRx, receiveDecoded_withInputs, receiveGate_withInputs, facade_withInputs]

theorem execUSend_withInputs (apdu : List Byte) :
    execUSend apdu (s.withInputs q) = answerWithInputs q (execUSend apdu s) := by
  simp only [execUSend, ← facade_withInputs, answerWithInputs_ite, State.withInputs_cfg]
  cases memWrite s.cfg Memory.empty 0 apdu <;> rfl

theorem execLTxdoneOk_withInputs :
    execLTxdoneOk (s.withInputs q) = answerWithInputs q (execLTxdoneOk s) := by
  simp only [execLTxdoneOk, ← facade_withInputs, answerWithInputs_ite, State.withInputs_cfg,
    State.withInputs_txBuf, State.withInputs_txLen]
  cases memRead s.cfg s.txBuf 0 s.txLen <;> rfl

/-- A class row is the receipt of its segment behind the gate of R131. -/
theorem exec_segment (g : Segment) :
    exec g.instr s =
      facade s (receiveGate s (1 + g.payload.length) (receiveDecoded (some g) s)) := by
  obtain ⟨fir, fin, seq, payload⟩ := g
  cases fir <;> cases fin <;> rfl

theorem exec_segment_withInputs (g : Segment) :
    exec g.instr (s.withInputs q) = answerWithInputs q (exec g.instr s) := by
  simp only [exec_segment, receiveDecoded_withInputs, receiveGate_withInputs, facade_withInputs]

/-- No row reads or writes the list of pending inputs. -/
theorem exec_withInputs (i : Instr) :
    exec i (s.withInputs q) = answerWithInputs q (exec i s) := by
  cases i with
  | lRx segment => exact execLRx_withInputs q s segment
  | uSend apdu => exact execUSend_withInputs q s apdu
  | lTxdoneOk => exact execLTxdoneOk_withInputs q s
  | segMiddle seq payload => exact exec_segment_withInputs q s ⟨false, false, seq, payload⟩
  | segLast seq payload => exact exec_segment_withInputs q s ⟨false, true, seq, payload⟩
  | segFirst seq payload => exact exec_segment_withInputs q s ⟨true, false, seq, payload⟩
  | segSingle seq payload => exact exec_segment_withInputs q s ⟨true, true, seq, payload⟩
  | lTxdoneFail | lLinkUp | lLinkDown | lTx segment | uRx apdu =>
    simp only [exec, execLTxdoneFail, execLLinkUp, execLLinkDown, execLTx, execURx,
      ← facade_withInputs, answerWithInputs_ite]
    rfl
  | uLinkDown | uLinkUp | uTxdoneFail | uTxdoneOk => exact facade_withInputs q s (.next (s.emit _))
  | illegalIn5 | illegalIn6 | illegalIn7 | illegalIn8 | illegalIn9 | illegalInA | illegalInB
  | illegalInD | illegalInE | illegalInF =>
    exact facade_withInputs q s (.next (s.raise .illegalEvent))

end

/-! ## The run of a queue -/

/-- An input transaction that encodes a row decodes to it (R77, R78). The rows of the other two code
spaces (R72, R76) have no such encoding. -/
theorem decode_evtIn_of_encode {i : Instr} {x : Transaction} (h : encode i = .evtIn x) :
    decode (.evtIn x) = .ok i := by
  cases i <;> cases h <;> rfl

theorem core_step (s : State) : Sys2Proof.core.step s = step s := rfl

/-- By induction on the rows: the first step runs the first row before the rest of the queue, which
that row neither reads nor writes. -/
theorem run_withInputs_eq_runEvents {es : List Instr} {xs : List Transaction} (s : State)
    (h : xs.map Encoded.evtIn = es.map encode) :
    Host.Core.run Sys2Proof.core xs.length (s.withInputs xs) = runEvents es (s.withInputs []) := by
  induction es generalizing xs s with
  | nil =>
    obtain rfl : xs = [] := by simpa using h
    rfl
  | cons i es ih =>
    cases xs with
    | nil => simp at h
    | cons x rest =>
      simp only [List.map_cons, List.cons.injEq] at h
      obtain ⟨hx, hrest⟩ := h
      have hstep : step (s.withInputs (x :: rest)) = exec i (s.withInputs rest) :=
        stepRunsDecodedEvent _ x rest i rfl (decode_evtIn_of_encode hx.symm)
      simp only [List.length_cons, Host.Core.run, runEvents, core_step, hstep,
        exec_withInputs]
      cases exec i s with
      | next t => exact ih t hrest
      | fault f => rfl
      | refused r => rfl

/-- Settles O10. -/
theorem queuedRunIsEventRun : Obligations.QueuedRunIsEventRun :=
  fun _ _ s h => run_withInputs_eq_runEvents s h

end Sys2Proof.Machine

namespace Sys2Proof.Machine

/-! ## The state after reset (R35) -/

/-- Settles O48: reset leaves both paths idle and the transmit counter at 0, which is all `L.LINK_UP`
writes beside `link`. -/
theorem resetHasTheSpecValues : Obligations.ResetHasTheSpecValues := by
  intro c
  refine ⟨?_, rfl, fun hc => ?_⟩
  · intro s hs
    obtain rfl | rfl : s = State.reset ∨ s = State.resetWith c := by simpa using hs
    · decide
    · simp [State.reset]
  · exact ⟨_, facade_of_running (s := State.resetWith c) ⟨hc, rfl⟩, rfl⟩

theorem resetWith_inv (c : Config) : (State.resetWith c).Inv :=
  ⟨fun _ => ⟨rfl, rfl⟩, fun _ => ⟨rfl, rfl⟩, nofun, fun _ => ⟨rfl, rfl⟩, Nat.zero_le _,
    ⟨Memory.exact_empty, Memory.exact_empty⟩, Nat.zero_le _⟩

theorem resetWith_chunkAligned (c : Config) : (State.resetWith c).ChunkAligned := nofun

/-- Settles O49: the host's reset state is the one with the default configuration. -/
theorem resetSatisfiesInvariant : Obligations.ResetSatisfiesInvariant :=
  ⟨fun c => ⟨resetWith_inv c, resetWith_chunkAligned c⟩, resetWith_inv Config.default,
    ⟨by decide, rfl⟩, Memory.empty_wf, Memory.empty_wf⟩

/-! ## The cause codes (R171) -/

theorem Cause.code_toNat_le (c : Cause) : c.code.toNat ≤ 9 := by
  cases c <;> decide

theorem Cause.code_ne_zero (c : Cause) : c.code ≠ 0#4 := by
  cases c <;> decide

theorem State.raise_fault_ne_zero (s : State) (c : Cause) : (s.raise c).fault ≠ 0#4 :=
  c.code_ne_zero

/-! ## What each operation does to the invariant -/

section
variable {s : State}

/-- The invariant does not speak of the record of outputs. -/
theorem State.Inv.emit (h : s.Inv) (e : OutEvent) : (s.emit e).Inv := h

/-- The invariant does not speak of the pending inputs. -/
theorem State.Inv.withInputs (h : s.Inv) (q : List Transaction) : (s.withInputs q).Inv := h

theorem State.Inv.raise (h : s.Inv) (c : Cause) : (s.raise c).Inv := by
  obtain ⟨hoffline, htxIdle, htxBusy, hrxIdle, hrxLen, hbuf, -⟩ := h
  exact ⟨hoffline, htxIdle, htxBusy, hrxIdle, hrxLen, hbuf, c.code_toNat_le⟩

theorem State.Inv.txToIdle (h : s.Inv) : s.txToIdle.Inv := by
  obtain ⟨hoffline, -, -, hrxIdle, hrxLen, ⟨-, hrxBuf⟩, hfault⟩ := h
  exact ⟨fun hl => ⟨rfl, (hoffline hl).2⟩, fun _ => ⟨rfl, rfl⟩, nofun, hrxIdle, hrxLen,
    ⟨Memory.exact_empty, hrxBuf⟩, hfault⟩

theorem State.Inv.rxToIdle (h : s.Inv) : s.rxToIdle.Inv := by
  obtain ⟨hoffline, htxIdle, htxBusy, -, -, ⟨htxBuf, -⟩, hfault⟩ := h
  exact ⟨fun hl => ⟨(hoffline hl).1, rfl⟩, htxIdle, htxBusy, fun _ => ⟨rfl, rfl⟩, Nat.zero_le _,
    ⟨htxBuf, Memory.exact_empty⟩, hfault⟩

/-- Online, both paths may be in use. -/
theorem State.Inv.online (h : s.Inv) (seq : Seq) :
    State.Inv { s with link := .online, txSeq := seq } := by
  obtain ⟨-, hrest⟩ := h
  exact ⟨nofun, hrest⟩

/-- The link may go down once both paths are idle (R156). -/
theorem State.Inv.offline (h : s.Inv) (htx : s.txBusy = false) (hrx : s.rxActive = false) :
    State.Inv { s with link := .offline } := by
  obtain ⟨-, hrest⟩ := h
  exact ⟨fun _ => ⟨htx, hrx⟩, hrest⟩

/-- The first chunk of an accepted send (R111) is `min S len` bytes, as R34 item 3 asks. -/
theorem State.Inv.send (h : s.Inv) {apdu : List Byte} (hl : s.link = .online)
    (hn : apdu.length ≤ s.cfg.maxApduSize) :
    (emitChunk apdu 0 true { s with txBuf := Memory.writeBytes Memory.empty 0 apdu,
                                    txLen := apdu.length, txBusy := true }).Inv := by
  obtain ⟨-, -, -, hrxIdle, hrxLen, ⟨-, hrxBuf⟩, hfault⟩ := h
  refine ⟨by simp [hl], nofun, fun _ => ?_, hrxIdle, hrxLen,
    ⟨(Memory.exact_fresh apdu).1, hrxBuf⟩, hfault⟩
  simp only [emitChunk_txPos, emitChunk_txLen, emitChunk_cfg, chunkLen]
  omega

/-- A further chunk (R115) moves `tx_pos` up, and no higher than `tx_len`. -/
theorem State.Inv.nextChunk (h : s.Inv) {a : List Byte} (hbusy : s.txBusy = true)
    (ha : memRead s.cfg s.txBuf 0 s.txLen = .ok a) : (emitChunk a s.txPos false s).Inv := by
  obtain ⟨hoffline, htxIdle, htxBusy, hrest⟩ := h
  obtain ⟨-, hlen, -⟩ := memRead_ok_iff.mp ha
  obtain ⟨hpos, hmax, hfirst⟩ := htxBusy hbusy
  refine ⟨hoffline, by simp [hbusy], fun _ => ?_, hrest⟩
  simp only [emitChunk_txPos, emitChunk_txLen, emitChunk_cfg, chunkLen, hlen]
  omega

/-- A reassembly starts Online, with a payload that fits the buffer (R133). -/
theorem State.Inv.firstSegment (h : s.Inv) {payload : List Byte} (seq : Seq)
    (hl : s.link = .online) (hn : payload.length ≤ s.cfg.maxApduSize) :
    State.Inv { s with rxBuf := Memory.writeBytes Memory.empty 0 payload,
                       rxLen := payload.length, rxSeq := seq, rxActive := true } := by
  obtain ⟨-, htxIdle, htxBusy, -, -, ⟨htxBuf, -⟩, hfault⟩ := h
  exact ⟨by simp [hl], htxIdle, htxBusy, nofun, hn,
    ⟨htxBuf, (Memory.exact_fresh payload).1⟩, hfault⟩

/-- An accepted payload is appended right above the bytes held (R135). -/
theorem State.Inv.appendSegment (h : s.Inv) {seq : Seq} {payload : List Byte}
    (hactive : s.rxActive = true) (haccepts : s.Accepts seq payload) :
    State.Inv { s with rxBuf := Memory.writeBytes s.rxBuf s.rxLen payload,
                       rxLen := s.rxLen + payload.length, rxSeq := seq } := by
  obtain ⟨hoffline, htxIdle, htxBusy, -, -, ⟨htxBuf, hrxBuf⟩, hfault⟩ := h
  obtain ⟨-, hfits⟩ := haccepts
  exact ⟨hoffline, htxIdle, htxBusy, by simp [hactive], hfits,
    ⟨htxBuf, (hrxBuf.append payload).1⟩, hfault⟩

end

/-! ## Every row and every step keeps the invariant -/

theorem receiveDecoded_keeps_inv {g : Segment} {s t : State} (h : s.Inv) (hl : s.link = .online)
    (hn : g.payload.length ≤ s.cfg.maxApduSize) (ht : receiveDecoded (some g) s = .next t) :
    t.Inv := by
  rcases receiveDecoded_next ht with ⟨-, -, rfl⟩ | ⟨-, -, rfl⟩ | ⟨-, -, rfl⟩ |
    ⟨-, -, hactive, haccepts, rfl⟩ | ⟨-, -, -, -, a, -, rfl⟩ | ⟨-, -, -, rfl⟩
  · exact h.firstSegment g.seq hl hn
  · exact h.rxToIdle.emit _
  · exact h
  · exact h.appendSegment hactive haccepts
  · exact h.rxToIdle.emit _
  · exact h.rxToIdle

theorem Effect.keeps_inv {i : Instr} {s t : State} (he : Effect i s t) (hc : s.cfg.WellFormed)
    (h : s.Inv) : t.Inv := by
  cases he with
  | violation _ _ c => exact h.raise c
  | send _ _ hl _ hn => exact h.send hl hn
  | nextChunk _ _ hbusy _ ha => exact h.nextChunk hbusy ha
  | sendDone | sendFailed => exact h.txToIdle.emit _
  | linkUp => exact (h.rxToIdle.online _).emit _
  | linkDown => exact (h.txToIdle.rxToIdle.offline rfl rfl).emit _
  | receiveEmpty => exact h
  | received _ _ _ _ _ hl hn ht => exact receiveDecoded_keeps_inv h hl (hn.trans hc.2) ht
  | output e => exact h.emit e

theorem exec_keeps_inv {i : Instr} {s t : State} (h : s.Inv) (ht : exec i s = .next t) :
    t.Inv := by
  rcases exec_next ht with ⟨-, rfl⟩ | ⟨⟨hc, -⟩, he⟩
  · exact h
  · exact he.keeps_inv hc h

/-- What every row keeps, and what does not depend on the pending inputs, every step keeps. -/
theorem step_keeps {P : State → Prop} (hinputs : ∀ s q, P s → P (s.withInputs q))
    (hexec : ∀ i s t, P s → exec i s = .next t → P t) {s t : State} (h : P s)
    (ht : step s = .next t) : P t := by
  cases hin : s.inputs with
  | nil =>
    rw [step_of_inputs_nil hin] at ht
    cases ht
    exact h
  | cons x rest =>
    rw [step_of_inputs_cons hin] at ht
    have hrest := hinputs s rest h
    rcases runTransaction_next ht with ⟨-, rfl⟩ | ⟨i, -, he⟩
    · exact hrest
    · exact hexec i _ t hrest he

/-- Settles O50: each case of `Effect` is an operation that keeps the invariant. -/
theorem stepKeepsInvariant : Obligations.StepKeepsInvariant :=
  ⟨fun _ _ h => step_keeps (fun _ q h => h.withInputs q) (fun _ _ _ h => exec_keeps_inv h) h,
    fun _ _ _ h => exec_keeps_inv h⟩

/-! ## Every input row answers a next state (R54, R150)

The only stops of an input row are the accesses to the buffers, and under the invariant the buffers
hold every byte that is read. -/

theorem facade_completes {s : State} {o : Host.Outcome State Fault Refusal}
    (hc : s.cfg.WellFormed) (ho : ∃ t, o = .next t) : ∃ t, facade s o = .next t := by
  simp only [facade, if_pos hc]
  split_ifs
  · exact ⟨s, rfl⟩
  · exact ho

theorem receiveGate_completes {s : State} {len : Nat} {o : Host.Outcome State Fault Refusal}
    (ho : len ≤ 1 + s.cfg.maxSegmentUserDataSize → ∃ t, o = .next t) :
    ∃ t, receiveGate s len o = .next t := by
  simp only [receiveGate]
  split_ifs with hoffline hlong
  · exact ⟨_, rfl⟩
  · exact ⟨_, rfl⟩
  · exact ho (Nat.not_lt.mp hlong)

theorem receiveMiddle_completes (seq : Seq) (payload : List Byte) (s : State) :
    ∃ t, receiveMiddle seq payload s = .next t := by
  simp only [receiveMiddle]
  split_ifs with hidle haccepts
  · exact ⟨_, rfl⟩
  · rw [memWrite_of_le haccepts.2]
    exact ⟨_, rfl⟩
  · exact ⟨_, rfl⟩

theorem receiveLast_completes (seq : Seq) (payload : List Byte) {s : State} (h : s.Inv) :
    ∃ t, receiveLast seq payload s = .next t := by
  obtain ⟨-, -, -, -, hrxLen, ⟨-, hrxBuf⟩, -⟩ := h
  simp only [receiveLast, hrxBuf.memRead hrxLen]
  split_ifs <;> exact ⟨_, rfl⟩

theorem receiveDecoded_completes {g : Segment} {s : State} (h : s.Inv)
    (hn : g.payload.length ≤ s.cfg.maxApduSize) : ∃ t, receiveDecoded (some g) s = .next t := by
  match g with
  | ⟨false, false, seq, payload⟩ => exact receiveMiddle_completes seq payload s
  | ⟨false, true, seq, payload⟩ => exact receiveLast_completes seq payload h
  | ⟨true, false, seq, payload⟩ =>
    simp only [receiveDecoded, receiveFirst, memWrite_of_le (off := 0) (by simpa using hn)]
    exact ⟨_, rfl⟩
  | ⟨true, true, _, _⟩ => exact ⟨_, rfl⟩

theorem execLRx_completes (segment : List Byte) {s : State} (hc : s.cfg.WellFormed) (h : s.Inv) :
    ∃ t, execLRx segment s = .next t := by
  refine facade_completes hc (receiveGate_completes fun hlen => ?_)
  cases segment with
  | nil => exact ⟨s, rfl⟩
  | cons hdr payload =>
    refine receiveDecoded_completes h ?_
    simp only [List.length_cons] at hlen ⊢
    have := hc.2
    omega

theorem execUSend_completes (apdu : List Byte) {s : State} (hc : s.cfg.WellFormed) :
    ∃ t, execUSend apdu s = .next t := by
  refine facade_completes hc ?_
  split_ifs with hoffline hbusy hlong
  · exact ⟨_, rfl⟩
  · exact ⟨_, rfl⟩
  · exact ⟨_, rfl⟩
  · rw [memWrite_of_le (by omega)]
    exact ⟨_, rfl⟩

theorem execLTxdoneOk_completes {s : State} (hc : s.cfg.WellFormed) (h : s.Inv) :
    ∃ t, execLTxdoneOk s = .next t := by
  obtain ⟨-, -, htxBusy, -, -, ⟨htxBuf, -⟩, -⟩ := h
  refine facade_completes hc ?_
  split_ifs with hidle hmore
  · exact ⟨_, rfl⟩
  · obtain ⟨-, hmax, -⟩ := htxBusy (by simpa using hidle)
    rw [htxBuf.memRead hmax]
    exact ⟨_, rfl⟩
  · exact ⟨_, rfl⟩

/-- R150: no input row stops from a state that satisfies the invariant, halted or not. -/
theorem exec_input_completes {i : Instr} {s : State} (hi : i.isInput = true)
    (hc : s.cfg.WellFormed) (h : s.Inv) : ∃ t, exec i s = .next t := by
  cases i with
  | lRx segment => exact execLRx_completes segment hc h
  | uSend apdu => exact execUSend_completes apdu hc
  | lTxdoneOk => exact execLTxdoneOk_completes hc h
  | lTxdoneFail | lLinkUp | lLinkDown =>
    refine facade_completes hc ?_
    split_ifs <;> exact ⟨_, rfl⟩
  | illegalIn5 | illegalIn6 | illegalIn7 | illegalIn8 | illegalIn9 | illegalInA | illegalInB
  | illegalInD | illegalInE | illegalInF => exact facade_completes hc ⟨_, rfl⟩
  | lTx | uLinkDown | uLinkUp | uTxdoneFail | uTxdoneOk | uRx | segMiddle | segLast | segFirst
  | segSingle => cases hi

/-! ## The neighbours' view along a run (R33, R34 item 6) -/

theorem newOutputs_of_outputs_eq {s t : State} {es : List OutEvent}
    (h : t.outputs = s.outputs ++ es) : newOutputs s t = es := by
  rw [newOutputs, h, List.drop_left]

theorem Neighbours.after_of_outputs_eq {s t : State} {es : List OutEvent} (v : Neighbours)
    (i : Instr) (h : t.outputs = s.outputs ++ es) :
    v.after i s t = es.foldl Neighbours.observe (v.issue i) := by
  rw [Neighbours.after, newOutputs_of_outputs_eq h]

theorem Neighbours.after_of_silent {s t : State} (v : Neighbours) (i : Instr)
    (h : t.outputs = s.outputs) : v.after i s t = v.issue i :=
  v.after_of_outputs_eq i (es := []) (by rw [h, List.append_nil])

theorem Neighbours.after_of_one_output {s t : State} {e : OutEvent} (v : Neighbours) (i : Instr)
    (h : t.outputs = s.outputs ++ [e]) : v.after i s t = (v.issue i).observe e :=
  v.after_of_outputs_eq i h

theorem runWatched_cons_of_next {i : Instr} {rest : List Instr} {v : Neighbours} {s t : State}
    (h : exec i s = .next t) :
    runWatched (i :: rest) v s = runWatched rest (v.after i s t) t := by
  simp only [runWatched, h]

/-- The receipt of a segment leaves `tx_busy` and emits nothing, or one `U.RX` (R136, R158). -/
theorem receiveDecoded_txBusy_outputs {g : Segment} {s t : State}
    (h : receiveDecoded (some g) s = .next t) :
    t.txBusy = s.txBusy ∧
      (t.outputs = s.outputs ∨ ∃ a, t.outputs = s.outputs ++ [.uRx a]) := by
  rcases receiveDecoded_next h with ⟨-, -, rfl⟩ | ⟨-, -, rfl⟩ | ⟨-, -, rfl⟩ | ⟨-, -, -, -, rfl⟩ |
    ⟨-, -, -, -, a, -, rfl⟩ | ⟨-, -, -, rfl⟩
  · exact ⟨rfl, .inl rfl⟩
  · exact ⟨rfl, .inr ⟨_, rfl⟩⟩
  · exact ⟨rfl, .inl rfl⟩
  · exact ⟨rfl, .inl rfl⟩
  · exact ⟨rfl, .inr ⟨_, rfl⟩⟩
  · exact ⟨rfl, .inl rfl⟩

/-- Receiving a segment changes nothing in the neighbours' view. -/
theorem Neighbours.after_received {g : Segment} {bytes : List Byte} {s t : State} (v : Neighbours)
    (h : receiveDecoded (some g) s = .next t) : v.after (.lRx bytes) s t = v := by
  obtain ⟨-, hout | ⟨a, hout⟩⟩ := receiveDecoded_txBusy_outputs h
  · exact v.after_of_silent _ hout
  · exact v.after_of_one_output _ hout

/-- Item 6 of R34 as one equation: one `L.TX` is outstanding while a send is in flight, else none. -/
def Neighbours.OutstandingIsBusy (v : Neighbours) (s : State) : Prop :=
  v.llOutstanding = s.txBusy.toNat

theorem Neighbours.outstandingIsBusy_iff {v : Neighbours} {s : State} :
    v.OutstandingIsBusy s ↔
      (s.txBusy = true ↔ v.llOutstanding = 1) ∧ (s.txBusy = false ↔ v.llOutstanding = 0) := by
  unfold Neighbours.OutstandingIsBusy
  cases s.txBusy <;> simp <;> omega

/-- An unfaulted input step keeps item 6: it emits an `L.TX` when a send starts or, on a result, goes
on; and a result or `L.LINK_DOWN`, which ends the send otherwise, takes the count to 0. -/
theorem Effect.keeps_outstandingIsBusy {i : Instr} {s t : State} {v : Neighbours}
    (he : Effect i s t) (hi : i.isInput = true) (hfault : t.fault = 0#4)
    (h : v.OutstandingIsBusy s) : (v.after i s t).OutstandingIsBusy t := by
  unfold Neighbours.OutstandingIsBusy at h ⊢
  cases he with
  | violation _ _ c => exact absurd hfault (s.raise_fault_ne_zero c)
  | send _ _ _ hb =>
    rw [v.after_of_one_output _ rfl]
    exact congrArg (· + 1) (h.trans (congrArg Bool.toNat hb))
  | nextChunk _ _ hb =>
    rw [v.after_of_one_output _ rfl]
    exact (congrArg Bool.toNat hb).symm
  | sendDone | sendFailed | linkDown =>
    rw [v.after_of_one_output _ rfl]
    rfl
  | linkUp =>
    rw [v.after_of_one_output _ rfl]
    exact h
  | receiveEmpty =>
    rw [v.after_of_silent _ rfl]
    exact h
  | received _ g _ _ hrow _ _ ht =>
    rcases hrow with rfl | ⟨bytes, rfl, -⟩
    · obtain ⟨fir, fin, seq, payload⟩ := g
      cases fir <;> cases fin <;> cases hi
    · rw [Neighbours.after_received v ht, (receiveDecoded_txBusy_outputs ht).1]
      exact h
  | output e => cases e <;> cases hi

/-- What holds all along a watched run from reset: the invariant, and item 6 until a violation. -/
structure WatchedInv (v : Neighbours) (s : State) : Prop where
  wellFormed : s.cfg.WellFormed
  inv : s.Inv
  outstanding : s.fault = 0#4 → v.OutstandingIsBusy s

theorem watchedInv_reset {c : Config} (hc : c.WellFormed) :
    WatchedInv Neighbours.initial (State.resetWith c) :=
  ⟨hc, resetWith_inv c, fun _ => rfl⟩

theorem WatchedInv.step {i : Instr} {v : Neighbours} {s t : State} (h : WatchedInv v s)
    (hi : i.isInput = true) (ht : exec i s = .next t) : WatchedInv (v.after i s t) t := by
  refine ⟨?_, exec_keeps_inv h.inv ht, fun hfault => ?_⟩
  · rw [(exec_keeps_cfg_inputs ht).1]
    exact h.wellFormed
  · rcases exec_next ht with ⟨hhalted, rfl⟩ | ⟨⟨-, hrunning⟩, he⟩
    · exact absurd hfault hhalted
    · exact he.keeps_outstandingIsBusy hi hfault (h.outstanding hrunning)

/-- A run of input events goes through and ends in a state with the watched invariant. -/
theorem WatchedInv.run {es : List Instr} {v : Neighbours} {s : State} (h : WatchedInv v s)
    (hes : ∀ e ∈ es, e.isInput = true) :
    ∃ v' t, runWatched es v s = some (v', t) ∧ WatchedInv v' t := by
  induction es generalizing v s with
  | nil => exact ⟨v, s, rfl, h⟩
  | cons i rest ih =>
    obtain ⟨hi, hrest⟩ := List.forall_mem_cons.mp hes
    obtain ⟨u, hu⟩ := exec_input_completes hi h.wellFormed h.inv
    rw [runWatched_cons_of_next hu]
    exact ih (h.step hi hu) hrest

/-- Settles O54: reset has the watched invariant, and every run of input events keeps it. -/
theorem reachableUnfaultedStatesSatisfyR34 : Obligations.ReachableUnfaultedStatesSatisfyR34 := by
  intro c es hc hes
  obtain ⟨v, t, hrun, h⟩ := (watchedInv_reset hc).run hes
  refine ⟨v, t, hrun, fun hfault => ?_⟩
  obtain ⟨hoffline, htxIdle, htxBusy, hrxIdle, hrxLen, -, -⟩ := h.inv
  exact ⟨hoffline, htxIdle, htxBusy, hrxIdle, hrxLen,
    Neighbours.outstandingIsBusy_iff.mp (h.outstanding hfault)⟩

/-! ## What the emptied and the fresh buffers hold (R24, R28) -/

theorem Memory.read_fresh_of_length_le {bs : List Byte} {a : Nat} (h : bs.length ≤ a) :
    Memory.read (Memory.writeBytes Memory.empty 0 bs) a = none := by
  obtain ⟨hexact, hbytes⟩ := Memory.exact_fresh bs
  rw [hexact.read, hbytes, List.getElem?_eq_none h]

theorem State.Running.not_halted {s : State} (h : s.Running) : ¬ s.Halted :=
  fun hhalted => hhalted h.2

/-- The buffer after an accepted `U.SEND` is the APDU alone (R111). -/
theorem execUSend_accepted_txBuf {apdu : List Byte} {s t : State} (hr : s.Running)
    (h : execUSend apdu s = .next t) (hs : s.txBusy = false) (ht : t.txBusy = true) :
    t.txBuf = Memory.writeBytes Memory.empty 0 apdu := by
  rcases execUSend_next h with
    ⟨hhalted, -⟩ | ⟨-, ⟨-, rfl⟩ | ⟨-, hb, -⟩ | ⟨-, -, -, rfl⟩ | ⟨-, -, -, rfl⟩⟩
  · exact absurd hhalted hr.not_halted
  · simp [hs] at ht
  · simp [hs] at hb
  · simp [hs] at ht
  · rfl

/-- A class row in a running block that ends unfaulted got past the gate of R131. -/
theorem exec_segment_unfaulted {g : Segment} {s t : State} (hr : s.Running)
    (h : exec g.instr s = .next t) (ht : t.fault = 0#4) :
    receiveDecoded (some g) s = .next t := by
  rw [exec_segment] at h
  rcases gated_next h with ⟨hhalted, -⟩ | ⟨-, ⟨-, rfl⟩ | ⟨-, -, rfl⟩ | ⟨-, -, ho⟩⟩
  · exact absurd hhalted hr.not_halted
  · exact absurd ht (State.raise_fault_ne_zero _ _)
  · exact absurd ht (State.raise_fault_ne_zero _ _)
  · exact ho

/-- The buffer after a `SEG_FIRST` is its payload alone (R133). -/
theorem execSegFirst_rxBuf {seq : Seq} {payload : List Byte} {s t : State} (hr : s.Running)
    (h : exec (.segFirst seq payload) s = .next t) (ht : t.fault = 0#4) :
    t.rxBuf = Memory.writeBytes Memory.empty 0 payload := by
  have hd := exec_segment_unfaulted (g := ⟨true, false, seq, payload⟩) hr h ht
  obtain ⟨-, rfl⟩ := receiveFirst_next hd
  rfl

theorem execSegSingle_rxBuf {seq : Seq} {payload : List Byte} {s t : State} (hr : s.Running)
    (h : exec (.segSingle seq payload) s = .next t) (ht : t.fault = 0#4) :
    t.rxBuf = Memory.empty := by
  cases exec_segment_unfaulted (g := ⟨true, true, seq, payload⟩) hr h ht
  rfl

theorem execLLinkUp_rxBuf {s t : State} (hr : s.Running) (h : execLLinkUp s = .next t)
    (ht : t.fault = 0#4) : t.rxBuf = Memory.empty := by
  rcases execLLinkUp_next h with ⟨hhalted, -⟩ | ⟨-, ⟨-, rfl⟩ | ⟨-, rfl⟩⟩
  · exact absurd hhalted hr.not_halted
  · exact absurd ht (State.raise_fault_ne_zero _ _)
  · rfl

/-- The rows that end a send empty `tx_buf`; every other row leaves `tx_busy` set. -/
theorem Effect.txBuf_of_send_ends {i : Instr} {s t : State} (he : Effect i s t)
    (hs : s.txBusy = true) (ht : t.txBusy = false) : t.txBuf = Memory.empty := by
  cases he with
  | sendDone | sendFailed | linkDown => rfl
  | send => cases ht
  | received _ _ _ _ _ _ _ hd =>
    rw [(receiveDecoded_txBusy_outputs hd).1, hs] at ht
    cases ht
  | violation | nextChunk | linkUp | receiveEmpty | output => exact absurd ht (by simp [hs])

/-- The ways a received segment ends a reassembly (R134, R136, R137) all empty `rx_buf`. -/
theorem receiveDecoded_rxBuf_of_reassembly_ends {g : Segment} {s t : State}
    (h : receiveDecoded (some g) s = .next t) (hs : s.rxActive = true) (ht : t.rxActive = false) :
    t.rxBuf = Memory.empty := by
  rcases receiveDecoded_next h with ⟨-, -, rfl⟩ | ⟨-, -, rfl⟩ | ⟨-, hidle, -⟩ |
    ⟨-, -, -, -, rfl⟩ | ⟨-, -, -, -, a, -, rfl⟩ | ⟨-, -, -, rfl⟩
  · cases ht
  · rfl
  · simp [hs] at hidle
  · simp [hs] at ht
  · rfl
  · rfl

/-- The rows that end a reassembly empty `rx_buf`; every other row leaves `rx_active` set. -/
theorem Effect.rxBuf_of_reassembly_ends {i : Instr} {s t : State} (he : Effect i s t)
    (hs : s.rxActive = true) (ht : t.rxActive = false) : t.rxBuf = Memory.empty := by
  cases he with
  | linkUp | linkDown => rfl
  | received _ _ _ _ _ _ _ hd => exact receiveDecoded_rxBuf_of_reassembly_ends hd hs ht
  | violation | send | nextChunk | sendDone | sendFailed | receiveEmpty | output =>
    exact absurd ht (by simp [hs])

/-- Settles O29: a fresh buffer holds what was written and no more, and each way a path becomes idle
empties its buffer. -/
theorem emptiedBuffersHoldNoByte : Obligations.EmptiedBuffersHoldNoByte := by
  intro s t i hr h
  obtain ⟨hhalted, -⟩ | ⟨-, he⟩ := exec_next h
  · exact absurd hhalted hr.not_halted
  refine ⟨?_, ?_, he.txBuf_of_send_ends, he.rxBuf_of_reassembly_ends, ?_⟩
  · rintro apdu rfl hs ht a ha
    rw [execUSend_accepted_txBuf hr h hs ht, Memory.read_fresh_of_length_le ha]
  · rintro seq payload rfl ht a ha
    rw [execSegFirst_rxBuf hr h ht, Memory.read_fresh_of_length_le ha]
  · rintro (rfl | ⟨seq, payload, rfl⟩) ht
    · exact execLLinkUp_rxBuf hr h ht
    · exact execSegSingle_rxBuf hr h ht

end Sys2Proof.Machine

namespace Sys2Proof.Machine

/-! ## The alignment of chunks (R57) -/

/-- A chunk after which bytes remain is a full one (R113). -/
theorem chunkLen_eq_max_of_lt {c : Config} {len pos : Nat} (h : pos + chunkLen c len pos < len) :
    chunkLen c len pos = c.maxSegmentUserDataSize := by
  unfold chunkLen at h ⊢
  omega

/-- A chunk that starts at a multiple of `S` ends at one, or ends the APDU. -/
theorem emitChunk_chunkAligned {a : List Byte} {pos : Nat} (first : Bool) {s : State}
    (hlen : a.length = s.txLen) (hpos : pos % s.cfg.maxSegmentUserDataSize = 0) :
    (emitChunk a pos first s).ChunkAligned := by
  intro _ hmore
  simp only [emitChunk_txPos, emitChunk_txLen, emitChunk_cfg, ← hlen] at hmore ⊢
  rw [chunkLen_eq_max_of_lt hmore, Nat.add_mod_right]
  exact hpos

/-- A block with no send in flight has no chunk to align. -/
theorem State.ChunkAligned.of_idle {s : State} (h : s.txBusy = false) : s.ChunkAligned :=
  fun hbusy => by simp [h] at hbusy

/-- The receipt of a segment is none of the transmit path's business (R158). -/
theorem receiveDecoded_keeps_chunkAligned {g : Segment} {s t : State} (h : s.ChunkAligned)
    (ht : receiveDecoded (some g) s = .next t) : t.ChunkAligned := by
  rcases receiveDecoded_next ht with ⟨-, -, rfl⟩ | ⟨-, -, rfl⟩ | ⟨-, -, rfl⟩ | ⟨-, -, -, -, rfl⟩ |
    ⟨-, -, -, -, a, -, rfl⟩ | ⟨-, -, -, rfl⟩ <;> exact h

/-- Only the two rows that emit a chunk move `tx_pos` within a send: the first chunk starts at 0, a
further one where the last ended. -/
theorem Effect.keeps_chunkAligned {i : Instr} {s t : State} (he : Effect i s t)
    (h : s.ChunkAligned) : t.ChunkAligned := by
  cases he with
  | send => exact emitChunk_chunkAligned true rfl (Nat.zero_mod _)
  | nextChunk _ _ hbusy hmore ha =>
    obtain ⟨-, hlen, -⟩ := memRead_ok_iff.mp ha
    exact emitChunk_chunkAligned false hlen (h hbusy hmore)
  | sendDone | sendFailed | linkDown => exact .of_idle rfl
  | received _ _ _ _ _ _ _ hd => exact receiveDecoded_keeps_chunkAligned h hd
  | violation | linkUp | receiveEmpty | output => exact h

/-- Settles O21: a halted block holds its state, and each case of `Effect` keeps the alignment. -/
theorem chunksStartAtMultiplesOfS : Obligations.ChunksStartAtMultiplesOfS := by
  intro i s t _ h ht
  rcases exec_next ht with ⟨-, rfl⟩ | ⟨-, he⟩
  · exact h
  · exact he.keeps_chunkAligned h

/-! ## The link cycle (R64, R155, R156) -/

theorem exec_lLinkDown_of_online {s : State} (hr : s.Running) (hl : s.link = .online) :
    exec .lLinkDown s =
      .next ({ s.txToIdle.rxToIdle with link := .offline }.emit .uLinkDown) :=
  (facade_of_running hr).trans (if_neg (by simp [hl]))

theorem exec_lLinkUp_of_offline {s : State} (hr : s.Running) (hl : s.link = .offline) :
    exec .lLinkUp s =
      .next ({ s.rxToIdle with link := .online, txSeq := Config.txSeqAfterLinkUp }.emit
        .uLinkUp) :=
  (facade_of_running hr).trans (if_neg (by simp [hl]))

/-- Settles O41: `L.LINK_DOWN` idles both paths and `L.LINK_UP` writes the counter, so no register
keeps a value of the old state but `fault`, which is 0 in a running block. -/
theorem linkCycleForgetsEverything : Obligations.LinkCycleForgetsEverything := by
  intro s hr _ hl
  have hup := exec_lLinkUp_of_offline
    (s := { s.txToIdle.rxToIdle with link := .offline }.emit .uLinkDown) hr rfl
  rw [runEvents_cons_of_next (exec_lLinkDown_of_online hr hl), runEvents_cons_of_next hup]
  obtain ⟨-, hfault⟩ := hr
  simp [runEvents, State.emit, State.reset, Config.txSeqAfterLinkUp, hfault]

/-! ## The canonical form of the buffers (R53) -/

/-- Both buffers list their offsets strictly rising. -/
def State.MemoryCanonical (s : State) : Prop :=
  Memory.wf s.txBuf = true ∧ Memory.wf s.rxBuf = true

theorem Memory.fresh_wf (bs : List Byte) :
    Memory.wf (Memory.writeBytes Memory.empty 0 bs) = true :=
  Memory.writeBytes_wf 0 bs Memory.empty_wf

theorem receiveDecoded_keeps_memoryCanonical {g : Segment} {s t : State} (h : s.MemoryCanonical)
    (ht : receiveDecoded (some g) s = .next t) : t.MemoryCanonical := by
  obtain ⟨htx, hrx⟩ := h
  rcases receiveDecoded_next ht with ⟨-, -, rfl⟩ | ⟨-, -, rfl⟩ | ⟨-, -, rfl⟩ | ⟨-, -, -, -, rfl⟩ |
    ⟨-, -, -, -, a, -, rfl⟩ | ⟨-, -, -, rfl⟩
  · exact ⟨htx, Memory.fresh_wf g.payload⟩
  · exact ⟨htx, Memory.empty_wf⟩
  · exact ⟨htx, hrx⟩
  · exact ⟨htx, Memory.writeBytes_wf s.rxLen g.payload hrx⟩
  · exact ⟨htx, Memory.empty_wf⟩
  · exact ⟨htx, Memory.empty_wf⟩

/-- A row leaves a buffer alone, empties it, starts a fresh one or appends to it. -/
theorem Effect.keeps_memoryCanonical {i : Instr} {s t : State} (he : Effect i s t)
    (h : s.MemoryCanonical) : t.MemoryCanonical := by
  cases he with
  | send apdu => exact ⟨Memory.fresh_wf apdu, h.2⟩
  | sendDone | sendFailed => exact ⟨Memory.empty_wf, h.2⟩
  | linkUp => exact ⟨h.1, Memory.empty_wf⟩
  | linkDown => exact ⟨Memory.empty_wf, Memory.empty_wf⟩
  | received _ _ _ _ _ _ _ hd => exact receiveDecoded_keeps_memoryCanonical h hd
  | violation | nextChunk | receiveEmpty | output => exact h

theorem exec_keeps_memoryCanonical {i : Instr} {s t : State} (h : s.MemoryCanonical)
    (ht : exec i s = .next t) : t.MemoryCanonical := by
  rcases exec_next ht with ⟨-, rfl⟩ | ⟨-, he⟩
  · exact h
  · exact he.keeps_memoryCanonical h

/-- Settles O51: every row keeps the form, and the form does not speak of the pending inputs. -/
theorem stepKeepsMemoryCanonical : Obligations.StepKeepsMemoryCanonical :=
  fun _ _ htx hrx => step_keeps (P := State.MemoryCanonical) (fun _ _ h => h)
    (fun _ _ _ h => exec_keeps_memoryCanonical h) ⟨htx, hrx⟩

end Sys2Proof.Machine

namespace Sys2Proof.Machine

/-! ## The ten illegal input codes (R78) -/

theorem exec_of_isIllegal {i : Instr} {s : State} (hi : i.isIllegal = true) (hr : s.Running) :
    exec i s = .next (s.raise .illegalEvent) := by
  cases i with
  | illegalIn5 | illegalIn6 | illegalIn7 | illegalIn8 | illegalIn9 | illegalInA | illegalInB
  | illegalInD | illegalInE | illegalInF => exact facade_of_running hr
  | _ => cases hi

/-- Settles O12: the ten rows are illegal ones, and an illegal row latches its cause. -/
theorem illegalEventsComplete : Obligations.IllegalEventsComplete := by
  intro s hr i hi
  have hlist : ∀ j ∈ [Instr.illegalIn5, .illegalIn6, .illegalIn7, .illegalIn8, .illegalIn9,
      .illegalInA, .illegalInB, .illegalInD, .illegalInE, .illegalInF], j.isIllegal = true := by
    decide
  exact exec_of_isIllegal (hlist i hi) hr

/-- An illegal code decodes to an illegal row, whatever bytes came with it. -/
theorem decode_of_illegal_code {code : EvCode} (data : List Byte)
    (h : code ∈ [0x5#4, 0x6#4, 0x7#4, 0x8#4, 0x9#4, 0xA#4, 0xB#4, 0xD#4, 0xE#4, 0xF#4]) :
    ∃ i : Instr, decode (.evtIn ⟨code, data⟩) = .ok i ∧ i.isIllegal = true := by
  fin_cases h <;> exact ⟨_, rfl, rfl⟩

/-- The encoding of an output event has one of the six codes of R77. -/
theorem encode_outEvent_code (e : OutEvent) :
    ∃ code data, encode e.instr = .evtOut ⟨code, data⟩ ∧
      code ∈ [0x4#4, 0x8#4, 0x9#4, 0xA#4, 0xB#4, 0xC#4] := by
  cases e <;> exact ⟨_, _, rfl, by decide⟩

/-- Settles O11: the step decodes the code to an illegal row, which latches its cause. -/
theorem illegalInputCodesRaise : Obligations.IllegalInputCodesRaise := by
  refine ⟨fun s code data rest hr hin hcode => ?_, encode_outEvent_code⟩
  obtain ⟨i, hdec, hi⟩ := decode_of_illegal_code data hcode
  have hexec := exec_of_isIllegal (s := { s with inputs := rest }) hi hr
  rw [step_of_inputs_cons hin, runTransaction_of_decode _ hdec, hexec]
  rfl

end Sys2Proof.Machine

namespace Sys2Proof

/-! ## The header byte and its class (R72, R100, R101) -/

section
variable (fir fin : Bool) (seq : Seq)

theorem encHdr_getLsbD (k : Nat) :
    (encHdr fir fin seq).getLsbD k =
      if k < 6 then seq.getLsbD k
      else if k - 6 < 1 then (BitVec.ofBool fin).getLsbD (k - 6)
      else (BitVec.ofBool fir).getLsbD (k - 6 - 1) :=
  BitVec.getLsbD_append.trans (by rw [BitVec.getLsbD_append])

@[simp] theorem hdrFir_encHdr : hdrFir (encHdr fir fin seq) = fir := by
  simp only [hdrFir, encHdr_getLsbD]
  simp

@[simp] theorem hdrFin_encHdr : hdrFin (encHdr fir fin seq) = fin := by
  simp only [hdrFin, encHdr_getLsbD]
  simp

theorem encHdr_toNat :
    (encHdr fir fin seq).toNat = 128 * fir.toNat + 64 * fin.toNat + seq.toNat := by
  have hfin : (BitVec.ofBool fin).toNat < 2 ^ 1 := (BitVec.ofBool fin).isLt
  rw [encHdr, BitVec.toNat_append, ← Nat.shiftLeft_add_eq_or_of_lt seq.isLt, BitVec.toNat_append,
    ← Nat.shiftLeft_add_eq_or_of_lt hfin, Nat.shiftLeft_eq, Nat.shiftLeft_eq, BitVec.toNat_ofBool,
    BitVec.toNat_ofBool]
  omega

end

/-- A header byte is its three fields put together (R104). -/
theorem encHdr_of_fields (h : Byte) : encHdr (hdrFir h) (hdrFin h) (hdrSeq h) = h := by
  refine BitVec.eq_of_getLsbD_eq fun k hk => ?_
  rw [encHdr_getLsbD]
  interval_cases k <;> simp [hdrFir, hdrFin, hdrSeq]

/-- The mask of R72 keeps the two flags and clears the number. -/
theorem and_classMask (h : Byte) : h &&& 0xC0#8 = encHdr (hdrFir h) (hdrFin h) 0#6 := by
  have hclass := Laws.encHdr_class (hdrFir h) (hdrFin h) (hdrSeq h)
  rwa [encHdr_of_fields] at hclass

theorem decode_tpdu_cons (h : Byte) (payload : List Byte) :
    decode (.tpdu (h :: payload)) =
      .ok (Segment.instr ⟨hdrFir h, hdrFin h, h.extractLsb' 0 6, payload⟩) := rfl

/-- A header of a given class lies in one quarter of the byte's range, and decodes to the class row
with the number of bits 5..0. -/
theorem header_of_class {h : Byte} {fir fin : Bool} (hm : h &&& 0xC0#8 = encHdr fir fin 0#6)
    (payload : List Byte) :
    128 * fir.toNat + 64 * fin.toNat ≤ h.toNat ∧
      h.toNat ≤ 128 * fir.toNat + 64 * fin.toNat + 63 ∧
      decode (.tpdu (h :: payload)) =
        .ok (Segment.instr ⟨fir, fin, h.extractLsb' 0 6, payload⟩) := by
  rw [and_classMask] at hm
  obtain rfl : hdrFir h = fir := by simpa using congrArg hdrFir hm
  obtain rfl : hdrFin h = fin := by simpa using congrArg hdrFin hm
  have hsum := encHdr_toNat (hdrFir h) (hdrFin h) (hdrSeq h)
  rw [encHdr_of_fields] at hsum
  have hseq := (hdrSeq h).isLt
  exact ⟨by omega, by omega, decode_tpdu_cons h payload⟩

/-- The four classes are all there are, for two flags have four values. -/
theorem header_class_cases (h : Byte) :
    h &&& 0xC0#8 = 0x00#8 ∨ h &&& 0xC0#8 = 0x40#8 ∨ h &&& 0xC0#8 = 0x80#8 ∨
      h &&& 0xC0#8 = 0xC0#8 := by
  rw [and_classMask]
  generalize hdrFir h = fir
  generalize hdrFin h = fin
  cases fir <;> cases fin <;> decide

/-- Settles O5: each masked value is the two flags of one class with the number cleared. -/
theorem headerClassIsTheTwoTopBits : Obligations.HeaderClassIsTheTwoTopBits := by
  refine ⟨fun h payload => ⟨fun hm => ?middle, fun hm => ?last, fun hm => ?first,
    fun hm => ?single, header_class_cases h⟩, rfl⟩
  case middle => exact (header_of_class (fir := false) (fin := false) hm payload).2
  case last => exact header_of_class (fir := false) (fin := true) hm payload
  case first => exact header_of_class (fir := true) (fin := false) hm payload
  case single =>
    obtain ⟨hlow, -, hdec⟩ := header_of_class (fir := true) (fin := true) hm payload
    exact ⟨hlow, hdec⟩

end Sys2Proof

namespace Sys2Proof

/-! ## The fields of a header byte as bits and as numbers (R100, R101) -/

@[simp] theorem hdrSeq_encHdr (fir fin : Bool) (seq : Seq) : hdrSeq (encHdr fir fin seq) = seq :=
  BitVec.extractLsb'_append_eq_right

/-- A header byte is the weighted sum of its own fields. -/
theorem header_toNat (h : Byte) :
    h.toNat = 128 * (hdrFir h).toNat + 64 * (hdrFin h).toNat + (hdrSeq h).toNat := by
  rw [← encHdr_toNat, encHdr_of_fields]

theorem hdrFir_eq_decide (h : Byte) : hdrFir h = decide (128 ≤ h.toNat) := by
  have hsum := header_toNat h
  have hseq := (hdrSeq h).isLt
  have hfin := (hdrFin h).toNat_le
  cases hfir : hdrFir h with
  | false => rw [hfir, Bool.toNat_false] at hsum; exact (decide_eq_false (by omega)).symm
  | true => rw [hfir, Bool.toNat_true] at hsum; exact (decide_eq_true (by omega)).symm

theorem hdrFin_eq_decide (h : Byte) : hdrFin h = decide (64 ≤ h.toNat % 128) := by
  have hsum := header_toNat h
  have hseq := (hdrSeq h).isLt
  cases hfin : hdrFin h with
  | false => rw [hfin, Bool.toNat_false] at hsum; exact (decide_eq_false (by omega)).symm
  | true => rw [hfin, Bool.toNat_true] at hsum; exact (decide_eq_true (by omega)).symm

theorem hdrSeq_toNat (h : Byte) : (hdrSeq h).toNat = h.toNat % 64 := by
  have hsum := header_toNat h
  have hseq := (hdrSeq h).isLt
  omega

/-- Settles O4: each field of an encoded header reads back at its bits, and the fields of any header
are the digits of its weighted sum. -/
theorem headerByteIsWeightedSum : Obligations.HeaderByteIsWeightedSum :=
  ⟨fun fir fin seq => ⟨hdrFir_encHdr fir fin seq, hdrFin_encHdr fir fin seq,
      hdrSeq_encHdr fir fin seq, encHdr_toNat fir fin seq⟩,
    fun h => ⟨hdrFir_eq_decide h, hdrFin_eq_decide h, hdrSeq_toNat h, rfl, rfl, rfl⟩⟩

/-! ## The laws of the segment codec (R104) -/

theorem decHdr_encHdr (fir fin : Bool) (seq : Seq) :
    decHdr (encHdr fir fin seq) = (fir, fin, seq) := by
  rw [decHdr, hdrFir_encHdr, hdrFin_encHdr, hdrSeq_encHdr]

theorem decSeg_encSeg (fir fin : Bool) (seq : Seq) (payload : List Byte) :
    decSeg (encSeg fir fin seq payload) = some ⟨fir, fin, seq, payload⟩ := by
  rw [encSeg, decSeg, hdrFir_encHdr, hdrFin_encHdr, hdrSeq_encHdr]

/-- Only a byte string with a header decodes, and its header is put together again from its fields. -/
theorem encSeg_of_decSeg {bytes : List Byte} {g : Segment} (hdec : decSeg bytes = some g) :
    encSeg g.fir g.fin g.seq g.payload = bytes := by
  cases bytes with
  | nil => cases hdec
  | cons h payload =>
    cases hdec
    exact congrArg (· :: payload) (encHdr_of_fields h)

theorem encSeg_length (fir fin : Bool) (seq : Seq) (payload : List Byte) :
    (encSeg fir fin seq payload).length = 1 + payload.length :=
  Nat.add_comm payload.length 1

/-- Settles O3: the two inverse laws of the header byte carry over to segments, for the payload is
copied. -/
theorem segmentCodecLaws : Obligations.SegmentCodecLaws :=
  ⟨decHdr_encHdr, encHdr_of_fields, decSeg_encSeg, fun _ _ _ => encSeg_of_decSeg, encSeg_length⟩

end Sys2Proof

namespace Sys2Proof.Machine

/-! ## The chunks of an APDU (R56, R118)

Everything about them follows from where chunk `k` starts: at `k * S`, which for `k > 0` is inside
the APDU exactly when `k < N`. -/

section
variable {c : Config} {len k : Nat}

theorem segmentCount_pos (c : Config) (len : Nat) : 0 < segmentCount c len :=
  Nat.lt_of_lt_of_le Nat.one_pos (Nat.le_max_left _ _)

theorem succ_lt_segmentCount_iff (hc : c.WellFormed) :
    k + 1 < segmentCount c len ↔ (k + 1) * c.maxSegmentUserDataSize < len := by
  have hS : 0 < c.maxSegmentUserDataSize := hc.1
  have hdiv := Nat.le_div_iff_mul_le hS (x := k + 2) (y := len + c.maxSegmentUserDataSize - 1)
  have hmul : (k + 2) * c.maxSegmentUserDataSize =
      (k + 1) * c.maxSegmentUserDataSize + c.maxSegmentUserDataSize := Nat.succ_mul _ _
  unfold segmentCount
  omega

/-- Every chunk starts within the APDU, or at its end. -/
theorem chunk_start_le (hc : c.WellFormed) (hk : k < segmentCount c len) :
    k * c.maxSegmentUserDataSize ≤ len := by
  cases k with
  | zero => omega
  | succ k => exact ((succ_lt_segmentCount_iff hc).mp hk).le

/-- The end of a chunk is the start of the next one, or the end of the APDU (R113). -/
theorem chunk_end (hc : c.WellFormed) (hk : k < segmentCount c len) :
    k * c.maxSegmentUserDataSize + chunkLen c len (k * c.maxSegmentUserDataSize) =
      min ((k + 1) * c.maxSegmentUserDataSize) len := by
  have hstart := chunk_start_le hc hk
  rw [chunkLen, Nat.succ_mul]
  omega

/-- FIN stands on the last chunk and on no other. -/
theorem chunkFin_eq (hc : c.WellFormed) (hk : k < segmentCount c len) :
    chunkFin len (k * c.maxSegmentUserDataSize) (chunkLen c len (k * c.maxSegmentUserDataSize)) =
      decide (k + 1 = segmentCount c len) := by
  rw [chunkFin, chunk_end hc hk, decide_eq_decide]
  have hnext := succ_lt_segmentCount_iff hc (k := k) (len := len)
  omega

end

section
variable {c : Config} {apdu : List Byte} {k : Nat}

theorem chunkAt_length (c : Config) (apdu : List Byte) (k : Nat) :
    (chunkAt c apdu k).length = chunkLen c apdu.length (k * c.maxSegmentUserDataSize) := by
  rw [chunkAt, List.length_take, List.length_drop, chunkLen]

/-- What `EMIT_CHUNK` cuts out at `k * S` (R113) is chunk `k`. -/
theorem chunkBytes_eq_chunkAt (c : Config) (apdu : List Byte) (k : Nat) :
    chunkBytes apdu (k * c.maxSegmentUserDataSize)
      (chunkLen c apdu.length (k * c.maxSegmentUserDataSize)) = chunkAt c apdu k := by
  rw [chunkBytes, chunkLen, chunkAt, ← List.length_drop, ← List.take_take, List.take_length]

theorem chunkAt_length_of_not_last (hc : c.WellFormed)
    (hk : k + 1 < segmentCount c apdu.length) :
    (chunkAt c apdu k).length = c.maxSegmentUserDataSize := by
  have hlt := (succ_lt_segmentCount_iff hc).mp hk
  rw [Nat.succ_mul] at hlt
  rw [chunkAt_length, chunkLen]
  omega

theorem length_le_segmentCount_mul (hc : c.WellFormed) :
    apdu.length ≤ segmentCount c apdu.length * c.maxSegmentUserDataSize := by
  obtain ⟨n, hn⟩ := Nat.exists_eq_add_one.mpr (segmentCount_pos c apdu.length)
  have hend := succ_lt_segmentCount_iff hc (k := n) (len := apdu.length)
  rw [hn] at hend ⊢
  omega

theorem chunksOf_length (c : Config) (apdu : List Byte) :
    (chunksOf c apdu).length = segmentCount c apdu.length := by
  rw [chunksOf, List.length_map, List.length_range]

/-- The first `n` chunks in order are the first `n * S` bytes. -/
theorem flatten_chunkAt_range (c : Config) (apdu : List Byte) (n : Nat) :
    ((List.range n).map (chunkAt c apdu)).flatten = apdu.take (n * c.maxSegmentUserDataSize) := by
  induction n with
  | zero => simp
  | succ n ih =>
    rw [List.range_succ, List.map_append, List.flatten_append, ih, Nat.succ_mul, List.take_add]
    simp [chunkAt]

theorem flatten_chunksOf (hc : c.WellFormed) : (chunksOf c apdu).flatten = apdu := by
  rw [chunksOf, flatten_chunkAt_range, List.take_of_length_le (length_le_segmentCount_mul hc)]

end

/-- Settles O16: the last chunk starts within the APDU and ends with it, and only the first chunk can
start at its end. -/
theorem chunksPartitionTheApdu : Obligations.ChunksPartitionTheApdu := by
  intro c apdu hc
  obtain ⟨n, hn⟩ := Nat.exists_eq_add_one.mpr (segmentCount_pos c apdu.length)
  have hstart : n * c.maxSegmentUserDataSize ≤ apdu.length := chunk_start_le hc (by omega)
  have hend := length_le_segmentCount_mul hc (apdu := apdu)
  have hlast : segmentCount c apdu.length - 1 = n := by omega
  rw [hn, Nat.succ_mul] at hend
  rw [hlast]
  refine ⟨chunksOf_length c apdu, fun k => chunkAt_length_of_not_last hc, ?_, hstart, by omega,
    fun hempty => ?_, flatten_chunksOf hc⟩
  · rw [chunkAt_length, chunkLen]
    omega
  · cases n with
    | zero => exact List.length_eq_zero_iff.mp (by omega)
    | succ k =>
      have hinside : (k + 1) * c.maxSegmentUserDataSize < apdu.length :=
        (succ_lt_segmentCount_iff hc).mp (by omega)
      omega

/-! ## The segments of a send (R118 item 2) -/

section
variable {c : Config} {apdu : List Byte} {q : Seq} {k : Nat}

theorem segmentsOf_length (c : Config) (q : Seq) (apdu : List Byte) :
    (segmentsOf c q apdu).length = segmentCount c apdu.length := by
  rw [segmentsOf, messageSegments, List.length_mapIdx, chunksOf_length]

theorem segmentsOf_getElem? (hk : k < segmentCount c apdu.length) :
    (segmentsOf c q apdu)[k]? =
      some (encSeg (decide (k = 0)) (decide (k + 1 = segmentCount c apdu.length))
        (q + BitVec.ofNat 6 k) (chunkAt c apdu k)) := by
  simp [segmentsOf, messageSegments, chunksOf, hk]

/-- `EMIT_CHUNK` at `k * S` hands over segment `k`. -/
theorem emitChunk_outputs_eq {s : State} (hc : s.cfg.WellFormed)
    (hk : k < segmentCount s.cfg apdu.length) (hq : s.txSeq = q + BitVec.ofNat 6 k) :
    ∃ segment, (segmentsOf s.cfg q apdu)[k]? = some segment ∧
      (emitChunk apdu (k * s.cfg.maxSegmentUserDataSize) (decide (k = 0)) s).outputs =
        s.outputs ++ [.lTx segment] := by
  refine ⟨_, segmentsOf_getElem? hk, ?_⟩
  rw [emitChunk_outputs, chunkFin_eq hc hk, chunkBytes_eq_chunkAt, hq]

end

/-! ## The three rows of the transmit path, one equation a case (R111, R115, R116) -/

section
variable {s : State} {apdu a : List Byte}

theorem exec_uSend_of_offline (hr : s.Running) (hl : s.link = .offline) :
    exec (.uSend apdu) s = .next (s.raise .sendOffline) :=
  (facade_of_running hr).trans (if_pos hl)

theorem exec_uSend_of_busy (hr : s.Running) (hl : s.link = .online) (hb : s.txBusy = true) :
    exec (.uSend apdu) s = .next (s.raise .sendBusy) :=
  (facade_of_running hr).trans ((if_neg (by simp [hl])).trans (if_pos hb))

theorem exec_uSend_of_oversize (hr : s.Running) (hl : s.link = .online) (hb : s.txBusy = false)
    (hn : s.cfg.maxApduSize < apdu.length) :
    exec (.uSend apdu) s = .next (s.raise .sendOversize) :=
  (facade_of_running hr).trans
    ((if_neg (by simp [hl])).trans ((if_neg (by simp [hb])).trans (if_pos hn)))

/-- The state in which an accepted `U.SEND` emits its first chunk: the APDU copied, the path busy. -/
def State.takeApdu (apdu : List Byte) (s : State) : State :=
  { s with txBuf := Memory.writeBytes Memory.empty 0 apdu, txLen := apdu.length, txBusy := true }

theorem exec_uSend_of_accepted (hr : s.Running) (hl : s.link = .online) (hb : s.txBusy = false)
    (hn : apdu.length ≤ s.cfg.maxApduSize) :
    exec (.uSend apdu) s = .next (emitChunk apdu 0 true (s.takeApdu apdu)) := by
  refine (facade_of_running hr).trans ?_
  rw [if_neg (by simp [hl]), if_neg (by simp [hb]), if_neg (by omega), memWrite_of_le (by omega)]
  rfl

theorem exec_lTxdoneOk_of_idle (hr : s.Running) (hb : s.txBusy = false) :
    exec .lTxdoneOk s = .next (s.raise .txdoneIdle) :=
  (facade_of_running hr).trans (if_pos hb)

theorem exec_lTxdoneOk_of_more (hr : s.Running) (hb : s.txBusy = true) (hp : s.txPos < s.txLen)
    (ha : memRead s.cfg s.txBuf 0 s.txLen = .ok a) :
    exec .lTxdoneOk s = .next (emitChunk a s.txPos false s) := by
  refine (facade_of_running hr).trans ?_
  rw [if_neg (by simp [hb]), if_pos hp, ha]

theorem exec_lTxdoneOk_of_last (hr : s.Running) (hb : s.txBusy = true) (hp : s.txPos = s.txLen) :
    exec .lTxdoneOk s = .next (s.txToIdle.emit .uTxdoneOk) :=
  (facade_of_running hr).trans ((if_neg (by simp [hb])).trans (if_neg (by simp [hp])))

theorem exec_lTxdoneFail_of_idle (hr : s.Running) (hb : s.txBusy = false) :
    exec .lTxdoneFail s = .next (s.raise .txdoneIdle) :=
  (facade_of_running hr).trans (if_pos hb)

theorem exec_lTxdoneFail_of_busy (hr : s.Running) (hb : s.txBusy = true) :
    exec .lTxdoneFail s = .next (s.txToIdle.emit .uTxdoneFail) :=
  (facade_of_running hr).trans (if_neg (by simp [hb]))

end

/-- Settles O13: of a fresh buffer the bytes read are the APDU's. -/
theorem sendTakesApduAndEmitsFirstSegment : Obligations.SendTakesApduAndEmitsFirstSegment := by
  refine fun apdu s hr => ⟨exec_uSend_of_offline hr, exec_uSend_of_busy hr,
    exec_uSend_of_oversize hr, fun hl hb hn => ⟨_, exec_uSend_of_accepted hr hl hb hn, ?_, ?_⟩⟩
  · intro k _
    obtain ⟨hexact, hbytes⟩ := Memory.exact_fresh apdu
    exact (hexact.read k).trans (by rw [hbytes])
  · simp [emitChunk, State.emit, State.takeApdu, chunkLen, chunkFin, chunkBytes]

/-- Settles O14: the bytes the statement names are what `MemRead` finds. -/
theorem txdoneOkSendsNextOrReports : Obligations.TxdoneOkSendsNextOrReports := by
  refine fun s hr => ⟨exec_lTxdoneOk_of_idle hr, ?_,
    fun hb hp => ⟨_, exec_lTxdoneOk_of_last hr hb hp, rfl⟩⟩
  intro a hb hp hmax hlen hbytes
  have hread : memRead s.cfg s.txBuf 0 s.txLen = .ok a :=
    memRead_ok_iff.mpr ⟨by omega, hlen, fun k hk => by simpa using hbytes k hk⟩
  rw [exec_lTxdoneOk_of_more hr hb hp hread, emitChunk, hlen]
  rfl

/-- Settles O15: the two cases of the row. -/
theorem txdoneFailEndsSend : Obligations.TxdoneFailEndsSend :=
  fun _ hr => ⟨exec_lTxdoneFail_of_idle hr, fun hb => ⟨_, exec_lTxdoneFail_of_busy hr hb, rfl⟩⟩

end Sys2Proof.Machine

namespace Sys2Proof.Machine

/-! ## The receive path leaves a send alone (R158) -/

/-- The output events of the transmit path emitted so far, oldest first. -/
def State.transmitOutputs (s : State) : List OutEvent := s.outputs.filter isTransmitOutput

theorem State.transmitOutputs_append {s t : State} {es : List OutEvent}
    (h : t.outputs = s.outputs ++ es) :
    t.transmitOutputs = s.transmitOutputs ++ es.filter isTransmitOutput := by
  rw [State.transmitOutputs, h, List.filter_append, State.transmitOutputs]

/-- An output event of another path is none of the transmit path's. -/
theorem State.transmitOutputs_emit_other (s : State) {e : OutEvent}
    (he : isTransmitOutput e = false) : (s.emit e).transmitOutputs = s.transmitOutputs := by
  rw [State.transmitOutputs_append (State.emit_outputs s e)]
  simp [he]

theorem sameTransmit_refl (s : State) : SameTransmit s s :=
  ⟨rfl, rfl, rfl, rfl, rfl, rfl, rfl, rfl⟩

theorem receiveDecoded_keeps_transmit {g : Segment} {s t : State}
    (h : receiveDecoded (some g) s = .next t) :
    SameTransmit t s ∧ t.transmitOutputs = s.transmitOutputs := by
  rcases receiveDecoded_next h with ⟨-, -, rfl⟩ | ⟨-, -, rfl⟩ | ⟨-, -, rfl⟩ | ⟨-, -, -, -, rfl⟩ |
    ⟨-, -, -, -, a, -, rfl⟩ | ⟨-, -, -, rfl⟩
  · exact ⟨sameTransmit_refl s, rfl⟩
  · exact ⟨sameTransmit_refl s, State.transmitOutputs_emit_other s.rxToIdle rfl⟩
  · exact ⟨sameTransmit_refl t, rfl⟩
  · exact ⟨sameTransmit_refl s, rfl⟩
  · exact ⟨sameTransmit_refl s, State.transmitOutputs_emit_other s.rxToIdle rfl⟩
  · exact ⟨sameTransmit_refl s, rfl⟩

/-- A valid `L.RX` goes through and leaves the transmit path as it was. -/
theorem exec_lRx_keeps_transmit {segment : List Byte} {s : State} (hr : s.Running) (h : s.Inv)
    (hl : s.link = .online) (hn : segment.length ≤ 1 + s.cfg.maxSegmentUserDataSize) :
    ∃ t, exec (.lRx segment) s = .next t ∧ SameTransmit t s ∧
      t.transmitOutputs = s.transmitOutputs := by
  obtain ⟨t, ht⟩ := execLRx_completes segment hr.1 h
  refine ⟨t, ht, ?_⟩
  have hd : receiveDecoded (decSeg segment) s = .next t := by
    rwa [execLRx, facade_of_running hr, receiveGate_of_open hl hn] at ht
  cases hg : decSeg segment with
  | none =>
    rw [hg] at hd
    cases hd
    exact ⟨sameTransmit_refl s, rfl⟩
  | some g => exact receiveDecoded_keeps_transmit (hg ▸ hd)

/-! ## A send and its answers (R118)

`SendProgress s apdu j t` is the closed form: `t` is what `U.SEND(apdu)` at `s` and `j <= N` answers
`L.TXDONE_OK` lead to, whatever the receive path did meanwhile. -/

structure SendProgress (s : State) (apdu : List Byte) (j : Nat) (t : State) : Prop where
  running : t.Running
  inv : t.Inv
  cfg_eq : t.cfg = s.cfg
  online : t.link = .online
  txBusy_eq : t.txBusy = decide (j < segmentCount s.cfg apdu.length)
  txSeq_eq : t.txSeq = s.txSeq + BitVec.ofNat 6 (min (j + 1) (segmentCount s.cfg apdu.length))
  /-- While the send is in flight `tx_buf` holds the APDU, and the first `j + 1` chunks are handed over. -/
  position : j < segmentCount s.cfg apdu.length →
    t.txBuf = Memory.writeBytes Memory.empty 0 apdu ∧ t.txLen = apdu.length ∧
      t.txPos = min ((j + 1) * s.cfg.maxSegmentUserDataSize) apdu.length
  outputs_eq : t.transmitOutputs = s.transmitOutputs ++
    ((segmentsOf s.cfg s.txSeq apdu).take (j + 1)).map OutEvent.lTx ++
    (if j = segmentCount s.cfg apdu.length then [.uTxdoneOk] else [])

theorem inc6_add_ofNat (q : Seq) (k : Nat) :
    inc6 (q + BitVec.ofNat 6 k) = q + BitVec.ofNat 6 (k + 1) := by
  rw [inc6, BitVec.ofNat_add, BitVec.add_assoc]

section
variable {s t : State} {apdu : List Byte} {j : Nat}

/-- `EMIT_CHUNK` at `j * S`, with `j` segments handed over before, leaves the state that `j` answers
lead to. -/
theorem sendProgress_emitChunk (hr : t.Running) (hcfg : t.cfg = s.cfg) (hl : t.link = .online)
    (hb : t.txBusy = true) (hbuf : t.txBuf = Memory.writeBytes Memory.empty 0 apdu)
    (hlen : t.txLen = apdu.length) (hj : j < segmentCount s.cfg apdu.length)
    (hseq : t.txSeq = s.txSeq + BitVec.ofNat 6 j)
    (hout : t.transmitOutputs =
      s.transmitOutputs ++ ((segmentsOf s.cfg s.txSeq apdu).take j).map OutEvent.lTx)
    (hinv : (emitChunk apdu (j * s.cfg.maxSegmentUserDataSize) (decide (j = 0)) t).Inv) :
    SendProgress s apdu j
      (emitChunk apdu (j * s.cfg.maxSegmentUserDataSize) (decide (j = 0)) t) where
  running := hr
  inv := hinv
  cfg_eq := hcfg
  online := hl
  txBusy_eq := hb.trans (decide_eq_true hj).symm
  txSeq_eq := by
    rw [emitChunk_txSeq, hseq, inc6_add_ofNat, Nat.min_eq_left hj]
  position := fun _ => ⟨hbuf, hlen, by rw [emitChunk_txPos, hcfg, chunk_end (hcfg ▸ hr.1) hj]⟩
  outputs_eq := by
    rw [← hcfg] at hj hout ⊢
    obtain ⟨segment, hget, hemit⟩ := emitChunk_outputs_eq hr.1 hj hseq
    rw [State.transmitOutputs_append hemit, hout, List.take_add_one, hget, if_neg hj.ne]
    simp [isTransmitOutput]

/-- An accepted `U.SEND` is the start of a send. -/
theorem sendProgress_start (hr : s.Running) (h : s.Inv) (hl : s.link = .online)
    (hb : s.txBusy = false) (hn : apdu.length ≤ s.cfg.maxApduSize) :
    ∃ t, exec (.uSend apdu) s = .next t ∧ SendProgress s apdu 0 t := by
  refine ⟨_, exec_uSend_of_accepted hr hl hb hn, ?_⟩
  have hstart := sendProgress_emitChunk (s := s) (t := s.takeApdu apdu) (j := 0) hr rfl hl rfl rfl
    rfl (segmentCount_pos _ _) (BitVec.add_zero _).symm (List.append_nil _).symm
  rw [Nat.zero_mul] at hstart
  exact hstart (h.send hl hn)

namespace SendProgress

theorem busy (h : SendProgress s apdu j t) (hj : j < segmentCount s.cfg apdu.length) :
    t.txBusy = true :=
  h.txBusy_eq.trans (decide_eq_true hj)

/-- Below `N` answers only segments have been emitted. -/
theorem outputs_of_lt (h : SendProgress s apdu j t) (hj : j < segmentCount s.cfg apdu.length) :
    t.transmitOutputs = s.transmitOutputs ++
      ((segmentsOf s.cfg s.txSeq apdu).take (j + 1)).map OutEvent.lTx := by
  rw [h.outputs_eq, if_neg hj.ne, List.append_nil]

/-- Whatever leaves the transmit path alone leaves the send where it is. -/
theorem of_sameTransmit {u : State} (h : SendProgress s apdu j t) (hinv : u.Inv)
    (hsame : SameTransmit u t) (hout : u.transmitOutputs = t.transmitOutputs) :
    SendProgress s apdu j u := by
  obtain ⟨hlink, hfault, hcfg, hseq, hbusy, hbuf, hlen, hpos⟩ := hsame
  exact
    { running := ⟨hcfg ▸ h.running.1, hfault.trans h.running.2⟩
      inv := hinv
      cfg_eq := hcfg.trans h.cfg_eq
      online := hlink.trans h.online
      txBusy_eq := hbusy.trans h.txBusy_eq
      txSeq_eq := hseq.trans h.txSeq_eq
      position := by rw [hbuf, hlen, hpos]; exact h.position
      outputs_eq := hout.trans h.outputs_eq }

theorem receive {segment : List Byte} (h : SendProgress s apdu j t)
    (hn : segment.length ≤ 1 + s.cfg.maxSegmentUserDataSize) :
    ∃ u, exec (.lRx segment) t = .next u ∧ SendProgress s apdu j u := by
  obtain ⟨u, hu, hsame, hout⟩ :=
    exec_lRx_keeps_transmit h.running h.inv h.online (h.cfg_eq.symm ▸ hn)
  exact ⟨u, hu, h.of_sameTransmit (exec_keeps_inv h.inv hu) hsame hout⟩

/-- The answer to a segment that is not the last: the next one is emitted. -/
theorem nextSegment (h : SendProgress s apdu j t)
    (hj : j + 1 < segmentCount s.cfg apdu.length) :
    ∃ u, exec .lTxdoneOk t = .next u ∧ SendProgress s apdu (j + 1) u := by
  have hlt : j < segmentCount s.cfg apdu.length := by omega
  have hmore := (succ_lt_segmentCount_iff (h.cfg_eq ▸ h.running.1)).mp hj
  obtain ⟨hbuf, hlen, hpos⟩ := h.position hlt
  rw [Nat.min_eq_left hmore.le] at hpos
  have hread : memRead t.cfg t.txBuf 0 t.txLen = .ok apdu := by
    obtain ⟨-, -, hrange, -⟩ := h.inv
    obtain ⟨-, hmax, -⟩ := hrange (h.busy hlt)
    obtain ⟨hexact, hbytes⟩ := Memory.exact_fresh apdu
    rw [hbuf, hlen, hexact.memRead (hlen ▸ hmax), hbytes]
  have hstep := exec_lTxdoneOk_of_more h.running (h.busy hlt) (by omega) hread
  have hinv := exec_keeps_inv h.inv hstep
  refine ⟨_, hstep, ?_⟩
  rw [hpos] at hinv ⊢
  exact sendProgress_emitChunk h.running h.cfg_eq h.online (h.busy hlt) hbuf hlen hj
    (by rw [h.txSeq_eq, Nat.min_eq_left (by omega)]) (h.outputs_of_lt hlt) hinv

/-- The answer to the last segment: success is reported. -/
theorem success (h : SendProgress s apdu j t) (hj : j + 1 = segmentCount s.cfg apdu.length) :
    ∃ u, exec .lTxdoneOk t = .next u ∧ SendProgress s apdu (j + 1) u := by
  have hlt : j < segmentCount s.cfg apdu.length := by omega
  obtain ⟨-, hlen, hpos⟩ := h.position hlt
  have hend : apdu.length ≤ (j + 1) * s.cfg.maxSegmentUserDataSize :=
    hj ▸ length_le_segmentCount_mul (h.cfg_eq ▸ h.running.1)
  refine ⟨_, exec_lTxdoneOk_of_last h.running (h.busy hlt) (by omega), ?_⟩
  exact
    { running := h.running
      inv := h.inv.txToIdle.emit _
      cfg_eq := h.cfg_eq
      online := h.online
      txBusy_eq := (decide_eq_false (by omega)).symm
      txSeq_eq := by
        rw [State.emit_txSeq, State.txToIdle_txSeq, h.txSeq_eq]
        congr 2
        omega
      position := fun hlt' => absurd hj hlt'.ne
      outputs_eq := by
        have hout := State.transmitOutputs_append (State.emit_outputs t.txToIdle .uTxdoneOk)
        have hall : (segmentsOf s.cfg s.txSeq apdu).take (j + 1 + 1) =
            (segmentsOf s.cfg s.txSeq apdu).take (j + 1) := by
          rw [List.take_of_length_le, List.take_of_length_le] <;> rw [segmentsOf_length] <;> omega
        rw [hall, if_pos hj]
        exact hout.trans (congrArg (· ++ [OutEvent.uTxdoneOk]) (h.outputs_of_lt hlt)) }

theorem answer (h : SendProgress s apdu j t) (hj : j < segmentCount s.cfg apdu.length) :
    ∃ u, exec .lTxdoneOk t = .next u ∧ SendProgress s apdu (j + 1) u :=
  (Nat.lt_or_eq_of_le (Nat.succ_le_of_lt hj)).elim h.nextSegment h.success

/-- By induction on the events: an answer takes the send one further, an `L.RX` leaves it. -/
theorem run {es : List Instr} (h : SendProgress s apdu j t)
    (hes : ∀ e ∈ es, e = .lTxdoneOk ∨
      ∃ segment, e = .lRx segment ∧ segment.length ≤ 1 + s.cfg.maxSegmentUserDataSize)
    (hj : j + es.count .lTxdoneOk ≤ segmentCount s.cfg apdu.length) :
    ∃ u, runEvents es t = .next u ∧ SendProgress s apdu (j + es.count .lTxdoneOk) u := by
  induction es generalizing j t with
  | nil => exact ⟨t, rfl, h⟩
  | cons e rest ih =>
    obtain ⟨he, hrest⟩ := List.forall_mem_cons.mp hes
    rcases he with rfl | ⟨segment, rfl, hn⟩
    · rw [List.count_cons_self, Nat.add_comm _ 1, ← Nat.add_assoc] at hj ⊢
      obtain ⟨u, hu, hprogress⟩ := h.answer (by omega)
      rw [runEvents_cons_of_next hu]
      exact ih hprogress hrest hj
    · rw [List.count_cons_of_ne (by simp)] at hj ⊢
      obtain ⟨u, hu, hprogress⟩ := h.receive hn
      rw [runEvents_cons_of_next hu]
      exact ih hprogress hrest hj

end SendProgress

/-- `U.SEND` and any answers and receipts after it lead to the closed form. -/
theorem sendProgress_of_run {es : List Instr} (hr : s.Running) (h : s.Inv) (hl : s.link = .online)
    (hb : s.txBusy = false) (hn : apdu.length ≤ s.cfg.maxApduSize)
    (hes : ∀ e ∈ es, e = .lTxdoneOk ∨
      ∃ segment, e = .lRx segment ∧ segment.length ≤ 1 + s.cfg.maxSegmentUserDataSize)
    (hj : es.count .lTxdoneOk ≤ segmentCount s.cfg apdu.length) :
    ∃ t, runEvents (.uSend apdu :: es) s = .next t ∧
      SendProgress s apdu (es.count .lTxdoneOk) t := by
  obtain ⟨u, hu, hstart⟩ := sendProgress_start hr h hl hb hn
  rw [runEvents_cons_of_next hu]
  simpa using hstart.run hes (by omega)

end

/-- Settles O17: the closed form is `SendProgress`, and an idle path has its registers at 0. -/
theorem sendEmitsItsSegmentsInOrder : Obligations.SendEmitsItsSegmentsInOrder := by
  intro apdu s es hr hinv hl hb hn hes hj
  obtain ⟨t, ht, h⟩ := sendProgress_of_run hr hinv hl hb hn hes hj
  refine ⟨t, ht, h.running.2, h.outputs_eq, h.txSeq_eq, h.txBusy_eq, fun hdone => ?_⟩
  obtain ⟨-, hidle, -⟩ := h.inv
  exact hidle (h.txBusy_eq.trans (decide_eq_false (by omega)))

/-- Settles O18: a failure is the answer in place of the next segment or of success. -/
theorem failedSendStopsAfterItsSegments : Obligations.FailedSendStopsAfterItsSegments := by
  intro apdu s es hr hinv hl hb hn hes hj
  obtain ⟨t, ht, h⟩ := sendProgress_of_run hr hinv hl hb hn hes hj.le
  refine ⟨t.txToIdle.emit .uTxdoneFail, ?_, h.running.2, ?_, ?_, ?_, rfl, rfl, rfl⟩
  · rw [runEvents_append ht, runEvents_cons_of_next (exec_lTxdoneFail_of_busy h.running (h.busy hj))]
    rfl
  · have hout := State.transmitOutputs_append (State.emit_outputs t.txToIdle .uTxdoneFail)
    exact hout.trans (congrArg (· ++ [OutEvent.uTxdoneFail]) (h.outputs_of_lt hj))
  · rw [List.length_take, segmentsOf_length, Nat.min_eq_left hj]
  · rw [State.emit_txSeq, State.txToIdle_txSeq, h.txSeq_eq, Nat.min_eq_left hj]

/-! ## An idle transmit path is silent (R156) -/

/-- With no send in flight only a `U.SEND` can start one or emit anything on the transmit path. -/
theorem Effect.idle_silent {i : Instr} {s t : State} (he : Effect i s t) (hi : i.isInput = true)
    (hsend : ∀ apdu, i ≠ .uSend apdu) (hb : s.txBusy = false) :
    t.txBusy = false ∧ t.transmitOutputs = s.transmitOutputs := by
  cases he with
  | violation | receiveEmpty => exact ⟨hb, rfl⟩
  | send apdu => exact absurd rfl (hsend apdu)
  | nextChunk _ _ hbusy | sendDone _ hbusy | sendFailed _ hbusy => simp [hb] at hbusy
  | linkUp => exact ⟨hb, State.transmitOutputs_emit_other _ rfl⟩
  | linkDown => exact ⟨rfl, State.transmitOutputs_emit_other _ rfl⟩
  | received _ _ _ _ _ _ _ hd =>
    obtain ⟨⟨-, -, -, -, hbusy, -⟩, hout⟩ := receiveDecoded_keeps_transmit hd
    exact ⟨hbusy.trans hb, hout⟩
  | output e => cases e <;> cases hi

theorem runEvents_idle_silent {es : List Instr} {s t : State}
    (hes : ∀ e ∈ es, e.isInput = true ∧ ∀ apdu, e ≠ .uSend apdu) (hb : s.txBusy = false)
    (h : runEvents es s = .next t) : t.transmitOutputs = s.transmitOutputs := by
  induction es generalizing s with
  | nil => cases h; rfl
  | cons i rest ih =>
    obtain ⟨⟨hi, hsend⟩, hrest⟩ := List.forall_mem_cons.mp hes
    obtain ⟨u, hu, hrun⟩ := runEvents_cons_next h
    rcases exec_next hu with ⟨-, rfl⟩ | ⟨-, he⟩
    · exact ih hrest hb hrun
    · obtain ⟨hidle, hout⟩ := he.idle_silent hi hsend hb
      exact (ih hrest hidle hrun).trans hout

/-- Settles O19: `L.LINK_DOWN` takes the send out of flight, and an idle path is silent. -/
theorem linkDownAbortsSendSilently : Obligations.LinkDownAbortsSendSilently := by
  intro apdu s es hr hinv hl hb hn hes hj
  obtain ⟨u, hu, h⟩ := sendProgress_of_run hr hinv hl hb hn hes hj.le
  exact ⟨u, _, hu, exec_lLinkDown_of_online h.running h.online, rfl, h.running.2,
    h.outputs_of_lt hj, fun ws w hws hw => runEvents_idle_silent hws rfl hw⟩

/-! ## The flow gate (R119) -/

theorem outputs_grow_of_eq {s t : State} {es : List OutEvent} (h : t.outputs = s.outputs ++ es) :
    t.outputs = s.outputs ++ newOutputs s t := by
  rw [newOutputs_of_outputs_eq h, h]

theorem outputs_grow_of_silent {s t : State} (h : t.outputs = s.outputs) :
    t.outputs = s.outputs ++ newOutputs s t :=
  outputs_grow_of_eq (h.trans (List.append_nil _).symm)

theorem outputs_grow_trans {s u t : State} (hsu : u.outputs = s.outputs ++ newOutputs s u)
    (hut : t.outputs = u.outputs ++ newOutputs u t) :
    t.outputs = s.outputs ++ (newOutputs s u ++ newOutputs u t) := by
  rw [← List.append_assoc, ← hsu, ← hut]

/-- No row takes anything back from the record of outputs. -/
theorem Effect.outputs_grow {i : Instr} {s t : State} (he : Effect i s t) :
    t.outputs = s.outputs ++ newOutputs s t := by
  cases he with
  | violation | receiveEmpty => exact outputs_grow_of_silent rfl
  | send | nextChunk | sendDone | sendFailed | linkUp | linkDown | output =>
    exact outputs_grow_of_eq rfl
  | received _ _ _ _ _ _ _ hd =>
    rcases (receiveDecoded_txBusy_outputs hd).2 with hout | ⟨a, hout⟩
    · exact outputs_grow_of_silent hout
    · exact outputs_grow_of_eq hout

theorem runEvents_outputs_grow {es : List Instr} {s t : State} (h : runEvents es s = .next t) :
    t.outputs = s.outputs ++ newOutputs s t := by
  induction es generalizing s with
  | nil => cases h; exact outputs_grow_of_silent rfl
  | cons i rest ih =>
    obtain ⟨u, hu, hrun⟩ := runEvents_cons_next h
    rcases exec_next hu with ⟨-, rfl⟩ | ⟨-, he⟩
    · exact ih hrun
    · exact outputs_grow_of_eq (outputs_grow_trans he.outputs_grow (ih hrun))

/-- The `L.TX` that `EMIT_CHUNK` adds is one only, of 1 to `1 + S` bytes (R113). -/
theorem emitChunk_adds_segment {a : List Byte} {pos : Nat} {first : Bool} {s r : State}
    {segment : List Byte} (hout : r.outputs = s.outputs)
    (hmem : .lTx segment ∈ newOutputs s (emitChunk a pos first r)) :
    newOutputs s (emitChunk a pos first r) = [.lTx segment] ∧ r.cfg.TxSegmentFits segment := by
  have hnew := newOutputs_of_outputs_eq
    ((emitChunk_outputs a pos first r).trans (congrArg (· ++ _) hout))
  rw [hnew] at hmem ⊢
  cases List.mem_singleton.mp hmem
  refine ⟨rfl, ?_⟩
  rw [Config.TxSegmentFits, encSeg_length, chunkBytes, List.length_take, chunkLen]
  omega

/-- An input row that adds an `L.TX` starts a send or goes on with one. -/
theorem Effect.adds_segment {i : Instr} {s t : State} {segment : List Byte} (he : Effect i s t)
    (hi : i.isInput = true) (hmem : .lTx segment ∈ newOutputs s t) :
    (((∃ apdu, i = .uSend apdu) ∧ s.txBusy = false ∧ s.link = .online) ∨
        (i = .lTxdoneOk ∧ s.txBusy = true)) ∧
      t.link = s.link ∧ t.txBusy = true ∧ newOutputs s t = [.lTx segment] ∧
      s.cfg.TxSegmentFits segment := by
  cases he with
  | send apdu _ hl hb =>
    exact ⟨.inl ⟨⟨apdu, rfl⟩, hb, hl⟩, rfl, rfl, emitChunk_adds_segment rfl hmem⟩
  | nextChunk _ _ hb =>
    exact ⟨.inr ⟨rfl, hb⟩, rfl, hb, emitChunk_adds_segment rfl hmem⟩
  | violation | receiveEmpty | sendDone | sendFailed | linkUp | linkDown =>
    simp [newOutputs] at hmem
  | received _ _ _ _ _ _ _ hd =>
    rcases (receiveDecoded_txBusy_outputs hd).2 with hout | ⟨a, hout⟩ <;>
      simp [newOutputs, hout] at hmem
  | output e => cases e <;> cases hi

/-- A send ends only by one of its answers or by `L.LINK_DOWN`. -/
theorem Effect.ends_send {i : Instr} {s t : State} (he : Effect i s t) (hs : s.txBusy = true)
    (ht : t.txBusy = false) : i = .lTxdoneOk ∨ i = .lTxdoneFail ∨ i = .lLinkDown := by
  cases he with
  | sendDone => exact .inl rfl
  | sendFailed => exact .inr (.inl rfl)
  | linkDown => exact .inr (.inr rfl)
  | send => cases ht
  | received _ _ _ _ _ _ _ hd =>
    rw [(receiveDecoded_txBusy_outputs hd).1, hs] at ht
    cases ht
  | violation | nextChunk | linkUp | receiveEmpty | output => exact absurd ht (by simp [hs])

/-- From an idle transmit path no run adds an `L.TX` without a `U.SEND`. -/
theorem exists_send_of_idle_run_adds_segment {es : List Instr} {s t : State} {segment : List Byte}
    (hes : ∀ e ∈ es, e.isInput = true) (hb : s.txBusy = false) (h : runEvents es s = .next t)
    (hmem : .lTx segment ∈ newOutputs s t) : ∃ apdu, .uSend apdu ∈ es := by
  by_contra hnone
  have hsilent := runEvents_idle_silent
    (fun e he => ⟨hes e he, fun apdu heq => hnone ⟨apdu, heq ▸ he⟩⟩) hb h
  rw [State.transmitOutputs_append (runEvents_outputs_grow h),
    List.append_right_eq_self, List.filter_eq_nil_iff] at hsilent
  exact hsilent _ hmem rfl

/-- What R119 asks of the events between a segment and the next one. -/
def AnsweredBeforeNext (es : List Instr) : Prop :=
  .lTxdoneOk ∈ es ∨
    ∃ before mid after e apdu, es = before ++ e :: mid ++ .uSend apdu :: after ∧
      (e = .lTxdoneFail ∨ e = .lLinkDown)

theorem AnsweredBeforeNext.cons {es : List Instr} (i : Instr) (h : AnsweredBeforeNext es) :
    AnsweredBeforeNext (i :: es) := by
  rcases h with hok | ⟨before, mid, after, e, apdu, rfl, he⟩
  · exact .inl (.tail _ hok)
  · exact .inr ⟨i :: before, mid, after, e, apdu, rfl, he⟩

/-- A row that ends the send, and after it a `U.SEND`, are what R119 asks for. -/
theorem answeredBeforeNext_of_ends {i : Instr} {es : List Instr} {apdu : List Byte}
    (hi : i = .lTxdoneOk ∨ i = .lTxdoneFail ∨ i = .lLinkDown) (hsend : .uSend apdu ∈ es) :
    AnsweredBeforeNext (i :: es) := by
  rcases hi with rfl | hi
  · exact .inl List.mem_cons_self
  · obtain ⟨mid, after, rfl⟩ := List.append_of_mem hsend
    exact .inr ⟨[], mid, after, i, apdu, rfl, hi⟩

/-- By induction on the events: the first row does not add the `L.TX` unless it is an answer; if it
leaves the send in flight the rest of the run is such a run, and if it ends the send a new one starts
in the rest. -/
theorem answeredBeforeNext_of_run {es : List Instr} {s t : State} {segment : List Byte}
    (hes : ∀ e ∈ es, e.isInput = true) (hb : s.txBusy = true) (h : runEvents es s = .next t)
    (hmem : .lTx segment ∈ newOutputs s t) : AnsweredBeforeNext es := by
  induction es generalizing s with
  | nil => cases h; simp [newOutputs] at hmem
  | cons i rest ih =>
    obtain ⟨hi, hrest⟩ := List.forall_mem_cons.mp hes
    obtain ⟨u, hu, hrun⟩ := runEvents_cons_next h
    rcases exec_next hu with ⟨-, rfl⟩ | ⟨-, he⟩
    · exact (ih hrest hb hrun hmem).cons i
    · rw [newOutputs_of_outputs_eq
        (outputs_grow_trans he.outputs_grow (runEvents_outputs_grow hrun)), List.mem_append] at hmem
      rcases hmem with hfirst | hlater
      · rcases (he.adds_segment hi hfirst).1 with ⟨-, hidle, -⟩ | ⟨rfl, -⟩
        · simp [hb] at hidle
        · exact .inl List.mem_cons_self
      · cases hbusy : u.txBusy with
        | true => exact (ih hrest hbusy hrun hlater).cons i
        | false =>
          obtain ⟨apdu, hsend⟩ := exists_send_of_idle_run_adds_segment hrest hbusy hrun hlater
          exact answeredBeforeNext_of_ends (he.ends_send hb hbusy) hsend

theorem State.Inv.online_of_busy {s : State} (h : s.Inv) (hb : s.txBusy = true) :
    s.link = .online := by
  cases hl : s.link with
  | online => rfl
  | offline =>
    obtain ⟨hidle, -⟩ := h.1 hl
    simp [hb] at hidle

/-- Settles O20: the first part is the induction over the run, the second the rows that add a segment,
of which the invariant says that they find the link Online. -/
theorem flowGateBetweenSegments : Obligations.FlowGateBetweenSegments := by
  refine ⟨fun es s t hes hb h ⟨segment, hmem⟩ => answeredBeforeNext_of_run hes hb h hmem, ?_⟩
  intro i s t segment hi hinv ht hmem
  rcases exec_next ht with ⟨-, rfl⟩ | ⟨-, he⟩
  · simp [newOutputs] at hmem
  · obtain ⟨hsource, hlink, hbusy, hnew, hfits⟩ := he.adds_segment hi hmem
    obtain ⟨hrow, hl⟩ : (((∃ apdu, i = .uSend apdu) ∧ s.txBusy = false) ∨
        (i = .lTxdoneOk ∧ s.txBusy = true)) ∧ s.link = .online := by
      rcases hsource with ⟨hsend, hidle, hl⟩ | ⟨hok, hb⟩
      · exact ⟨.inl ⟨hsend, hidle⟩, hl⟩
      · exact ⟨.inr ⟨hok, hb⟩, hinv.online_of_busy hb⟩
    exact ⟨hrow, hl, hlink.trans hl, hbusy, hnew, hfits⟩

end Sys2Proof.Machine

namespace Sys2Proof.Machine

/-! ## The gate of R131 and the class rows behind it

A byte string with a header is received as the class row of its segment, so each fact about a class
row is a fact about `L.RX` as well. -/

theorem receiveGate_of_offline {s : State} (len : Nat) (o : Host.Outcome State Fault Refusal)
    (hl : s.link = .offline) : receiveGate s len o = .next (s.raise .rxOffline) :=
  if_pos hl

theorem receiveGate_of_tooLong {s : State} {len : Nat} (o : Host.Outcome State Fault Refusal)
    (hl : s.link = .online) (hn : 1 + s.cfg.maxSegmentUserDataSize < len) :
    receiveGate s len o = .next (s.raise .rxOversize) :=
  (if_neg (by simp [hl])).trans (if_pos hn)

theorem exec_lRx_of_decSeg {segment : List Byte} {g : Segment} (s : State)
    (h : decSeg segment = some g) : exec (.lRx segment) s = exec g.instr s := by
  have hlen : segment.length = 1 + g.payload.length := by
    rw [← encSeg_of_decSeg h, encSeg_length]
  rw [exec_segment, ← hlen, ← h]
  rfl

theorem exec_lRx_encSeg (fir fin : Bool) (seq : Seq) (payload : List Byte) (s : State) :
    exec (.lRx (encSeg fir fin seq payload)) s =
      exec (Segment.instr ⟨fir, fin, seq, payload⟩) s :=
  exec_lRx_of_decSeg s (decSeg_encSeg fir fin seq payload)

section
variable {s : State}

theorem exec_lRx_of_offline (segment : List Byte) (hr : s.Running) (hl : s.link = .offline) :
    exec (.lRx segment) s = .next (s.raise .rxOffline) :=
  (facade_of_running hr).trans (receiveGate_of_offline _ _ hl)

theorem exec_lRx_of_tooLong {segment : List Byte} (hr : s.Running) (hl : s.link = .online)
    (hn : 1 + s.cfg.maxSegmentUserDataSize < segment.length) :
    exec (.lRx segment) s = .next (s.raise .rxOversize) :=
  (facade_of_running hr).trans (receiveGate_of_tooLong _ hl hn)

theorem exec_lRx_nil (hr : s.Running) (hl : s.link = .online) : exec (.lRx []) s = .next s :=
  (facade_of_running hr).trans (receiveGate_of_open hl (Nat.zero_le _))

theorem exec_segment_of_offline (g : Segment) (hr : s.Running) (hl : s.link = .offline) :
    exec g.instr s = .next (s.raise .rxOffline) := by
  rw [exec_segment, facade_of_running hr, receiveGate_of_offline _ _ hl]

theorem exec_segment_of_tooLong {g : Segment} (hr : s.Running) (hl : s.link = .online)
    (hn : s.cfg.maxSegmentUserDataSize < g.payload.length) :
    exec g.instr s = .next (s.raise .rxOversize) := by
  rw [exec_segment, facade_of_running hr, receiveGate_of_tooLong _ hl (by omega)]

theorem exec_segment_of_open {g : Segment} (hr : s.Running) (hl : s.link = .online)
    (hn : g.payload.length ≤ s.cfg.maxSegmentUserDataSize) :
    exec g.instr s = receiveDecoded (some g) s := by
  rw [exec_segment, facade_of_running hr, receiveGate_of_open hl (by omega)]

end

/-- Settles O22: the four classes are the values of the two flags. -/
theorem receiveGateAndDispatch : Obligations.ReceiveGateAndDispatch := by
  refine fun segment s hr => ⟨exec_lRx_of_offline segment hr, exec_lRx_of_tooLong hr,
    fun hl _ => ⟨?_, ?_⟩⟩
  · rintro rfl
    exact exec_lRx_nil hr hl
  · rintro hdr payload rfl
    have hrow : ∀ fir fin, hdr.getLsbD 7 = fir → hdr.getLsbD 6 = fin →
        exec (.lRx (hdr :: payload)) s =
          exec (Segment.instr ⟨fir, fin, hdr.extractLsb' 0 6, payload⟩) s := by
      rintro fir fin rfl rfl
      exact exec_lRx_of_decSeg s rfl
    exact ⟨hrow true false, hrow true true, hrow false false, hrow false true⟩

/-- Settles O23: the empty string passes both tests of the gate and has no header to dispatch on. -/
theorem emptyReceiveChangesNothing : Obligations.EmptyReceiveChangesNothing :=
  fun _ hr hl => exec_lRx_nil hr hl

/-- Settles O28: the four rows are the four classes of one segment. -/
theorem overlongClassSegmentsRaise : Obligations.OverlongClassSegmentsRaise := by
  intro seq payload s hr i hi
  obtain ⟨fir, fin, rfl⟩ : ∃ fir fin, i = Segment.instr ⟨fir, fin, seq, payload⟩ := by
    simp only [List.mem_cons, List.not_mem_nil, or_false] at hi
    rcases hi with rfl | rfl | rfl | rfl
    · exact ⟨true, false, rfl⟩
    · exact ⟨true, true, rfl⟩
    · exact ⟨false, false, rfl⟩
    · exact ⟨false, true, rfl⟩
  exact ⟨exec_segment_of_offline _ hr,
    exec_segment_of_tooLong (g := ⟨fir, fin, seq, payload⟩) hr⟩

/-! ## The class rows past the gate, one equation a case (R133 to R136) -/

/-- The state a `SEG_FIRST` leaves (R133): a new reassembly of this payload. -/
def State.startReassembly (seq : Seq) (payload : List Byte) (s : State) : State :=
  { s with rxBuf := Memory.writeBytes Memory.empty 0 payload, rxLen := payload.length,
           rxSeq := seq, rxActive := true }

/-- The state an accepted `SEG_MIDDLE` leaves (R135): the payload after the bytes held. -/
def State.appendPayload (seq : Seq) (payload : List Byte) (s : State) : State :=
  { s with rxBuf := Memory.writeBytes s.rxBuf s.rxLen payload,
           rxLen := s.rxLen + payload.length, rxSeq := seq }

section
variable {s : State} {seq : Seq} {payload a : List Byte}

theorem exec_segFirst_of_open (hr : s.Running) (hl : s.link = .online)
    (hn : payload.length ≤ s.cfg.maxSegmentUserDataSize) :
    exec (.segFirst seq payload) s = .next (s.startReassembly seq payload) := by
  have hfits : 0 + payload.length ≤ s.cfg.maxApduSize := by
    have := hr.1.2
    omega
  refine (exec_segment_of_open (g := ⟨true, false, seq, payload⟩) hr hl hn).trans ?_
  rw [receiveDecoded, receiveFirst, memWrite_of_le hfits]
  rfl

theorem exec_segSingle_of_open (hr : s.Running) (hl : s.link = .online)
    (hn : payload.length ≤ s.cfg.maxSegmentUserDataSize) :
    exec (.segSingle seq payload) s = .next (s.rxToIdle.emit (.uRx payload)) :=
  exec_segment_of_open (g := ⟨true, true, seq, payload⟩) hr hl hn

/-- A non-FIR segment is dropped while no reassembly is in progress, whatever its FIN. -/
theorem exec_nonFir_of_idle (fin : Bool) (hr : s.Running) (hl : s.link = .online)
    (hn : payload.length ≤ s.cfg.maxSegmentUserDataSize) (hidle : s.rxActive = false) :
    exec (Segment.instr ⟨false, fin, seq, payload⟩) s = .next s := by
  rw [exec_segment_of_open hr hl hn]
  cases fin <;> exact if_pos hidle

/-- A non-FIR segment that is not accepted ends the reassembly, whatever its FIN. -/
theorem exec_nonFir_of_rejected (fin : Bool) (hr : s.Running) (hl : s.link = .online)
    (hn : payload.length ≤ s.cfg.maxSegmentUserDataSize) (hactive : s.rxActive = true)
    (hrejects : ¬ s.Accepts seq payload) :
    exec (Segment.instr ⟨false, fin, seq, payload⟩) s = .next s.rxToIdle := by
  rw [exec_segment_of_open hr hl hn]
  cases fin <;> exact (if_neg (by simp [hactive])).trans (if_neg hrejects)

theorem exec_segMiddle_of_accepted (hr : s.Running) (hl : s.link = .online)
    (hn : payload.length ≤ s.cfg.maxSegmentUserDataSize) (hactive : s.rxActive = true)
    (haccepts : s.Accepts seq payload) :
    exec (.segMiddle seq payload) s = .next (s.appendPayload seq payload) := by
  refine (exec_segment_of_open (g := ⟨false, false, seq, payload⟩) hr hl hn).trans ?_
  rw [receiveDecoded, receiveMiddle, if_neg (by simp [hactive]), if_pos haccepts,
    memWrite_of_le haccepts.2]
  rfl

theorem exec_segLast_of_accepted (hr : s.Running) (hl : s.link = .online)
    (hn : payload.length ≤ s.cfg.maxSegmentUserDataSize) (hactive : s.rxActive = true)
    (haccepts : s.Accepts seq payload) (ha : memRead s.cfg s.rxBuf 0 s.rxLen = .ok a) :
    exec (.segLast seq payload) s = .next (s.rxToIdle.emit (.uRx (a ++ payload))) := by
  refine (exec_segment_of_open (g := ⟨false, true, seq, payload⟩) hr hl hn).trans ?_
  rw [receiveDecoded, receiveLast, if_neg (by simp [hactive]), if_pos haccepts, ha]

end

/-- Settles O24: of a fresh buffer the bytes read are the payload's. -/
theorem firstSegmentStartsReassembly : Obligations.FirstSegmentStartsReassembly := by
  intro seq payload s hr hl hn
  have hrow := exec_segFirst_of_open (seq := seq) hr hl hn
  refine ⟨_, hrow, (exec_lRx_encSeg true false seq payload s).trans hrow, fun k _ => ?_, rfl⟩
  obtain ⟨hexact, hbytes⟩ := Memory.exact_fresh payload
  exact (hexact.read k).trans (by rw [hbytes])

/-- Settles O25: the row gives its number no part in the answer. -/
theorem singleSegmentDelivers : Obligations.SingleSegmentDelivers := by
  intro seq payload s hr hl hn
  have hrow := exec_segSingle_of_open (seq := seq) hr hl hn
  exact ⟨_, hrow, (exec_lRx_encSeg true true seq payload s).trans hrow, rfl⟩

/-- Settles O26: the three cases of the row. -/
theorem middleSegmentAppendsOrDrops : Obligations.MiddleSegmentAppendsOrDrops := by
  refine fun seq payload s hr hl hn => ⟨exec_lRx_encSeg false false seq payload s,
    exec_nonFir_of_idle false hr hl hn, fun hactive hseq hfits => ?accepted,
    fun hactive hrejects => ?rejected⟩
  case accepted =>
    exact ⟨_, exec_segMiddle_of_accepted hr hl hn hactive ⟨hseq, hfits⟩,
      Memory.read_writeBytes payload s.rxBuf s.rxLen, rfl⟩
  case rejected => exact ⟨_, exec_nonFir_of_rejected false hr hl hn hactive hrejects, rfl⟩

/-- Settles O27: the three cases of the row; the bytes the statement names are what `MemRead`
finds. -/
theorem lastSegmentDeliversOrDrops : Obligations.LastSegmentDeliversOrDrops := by
  refine fun seq payload s hr hl hn => ⟨exec_lRx_encSeg false true seq payload s,
    exec_nonFir_of_idle true hr hl hn, fun a hactive hseq hfits hlen hbytes => ?accepted,
    fun hactive hrejects => ?rejected⟩
  case accepted =>
    have hread : memRead s.cfg s.rxBuf 0 s.rxLen = .ok a :=
      memRead_ok_iff.mpr ⟨by omega, hlen, fun k hk => by simpa using hbytes k hk⟩
    exact ⟨_, exec_segLast_of_accepted hr hl hn hactive ⟨hseq, hfits⟩ hread, rfl⟩
  case rejected => exact ⟨_, exec_nonFir_of_rejected true hr hl hn hactive hrejects, rfl⟩

/-! ## The transmit path leaves a reassembly alone (R158) -/

/-- The output events of the receive path emitted so far, oldest first. -/
def State.receiveOutputs (s : State) : List OutEvent := s.outputs.filter isReceiveOutput

/-- An output event of another path is none of the receive path's. -/
theorem State.receiveOutputs_emit_other (s : State) {e : OutEvent}
    (he : isReceiveOutput e = false) : (s.emit e).receiveOutputs = s.receiveOutputs := by
  simp [State.receiveOutputs, he]

theorem sameReceive_refl (s : State) : SameReceive s s := ⟨rfl, rfl, rfl, rfl, rfl, rfl, rfl⟩

theorem isReceive_of_isTransmit {i : Instr} (h : isTransmit i = true) : isReceive i = false := by
  cases i with
  | uSend | lTxdoneOk | lTxdoneFail => rfl
  | _ => cases h

/-- A transmit row that is no violation writes only the transmit path and emits none of `U.RX`. -/
theorem Effect.transmit_keeps_receive {i : Instr} {s t : State} (he : Effect i s t)
    (hi : isTransmit i = true) (hfault : t.fault = 0#4) :
    SameReceive t s ∧ t.receiveOutputs = s.receiveOutputs := by
  cases he with
  | violation _ _ c => exact absurd hfault (s.raise_fault_ne_zero c)
  | send apdu | nextChunk | sendDone | sendFailed =>
    exact ⟨sameReceive_refl s, State.receiveOutputs_emit_other s rfl⟩
  | received _ g _ _ hrow =>
    rcases hrow with rfl | ⟨bytes, rfl, -⟩
    · obtain ⟨fir, fin, seq, payload⟩ := g
      cases fir <;> cases fin <;> cases hi
    · cases hi
  | linkUp | linkDown | receiveEmpty => cases hi
  | output e => cases e <;> cases hi

/-! ## The message collected so far (R138)

`Collected c q ps t` is the closed form: `t` is what the receipt of the segments with the payloads
`ps`, the number `q` on the first and FIN on none, leads to in a block of configuration `c`, whatever
the transmit path did meanwhile. Before the first one the receive path may be in any state. -/

structure Collected (c : Config) (q : Seq) (ps : List (List Byte)) (t : State) : Prop where
  running : t.Running
  inv : t.Inv
  cfg_eq : t.cfg = c
  online : t.link = .online
  assembling : ps ≠ [] → t.rxActive = true ∧ inc6 t.rxSeq = q + BitVec.ofNat 6 ps.length ∧
    t.rxBuf.map Prod.snd = ps.flatten

/-- The segments of a message that is not yet complete: FIR on the first, FIN on none. -/
def openSegments (q : Seq) (ps : List (List Byte)) : List (List Byte) :=
  ps.mapIdx fun k p => encSeg (decide (k = 0)) false (q + BitVec.ofNat 6 k) p

theorem openSegments_concat (q : Seq) (ps : List (List Byte)) (p : List Byte) :
    openSegments q (ps ++ [p]) = openSegments q ps ++
      [encSeg (decide (ps.length = 0)) false (q + BitVec.ofNat 6 ps.length) p] :=
  List.mapIdx_concat

theorem map_openSegments {α : Type} (f : List Byte → α) (q : Seq) (ps : List (List Byte)) :
    (openSegments q ps).map f =
      ps.mapIdx fun k p => f (encSeg (decide (k = 0)) false (q + BitVec.ofNat 6 k) p) := by
  rw [openSegments, List.mapIdx_eq_zipIdx_map, List.mapIdx_eq_zipIdx_map, List.map_map]
  rfl

/-- A message is its open segments and the one with FIN. -/
theorem messageSegments_concat (q : Seq) (ps : List (List Byte)) (p : List Byte) :
    messageSegments q (ps ++ [p]) = openSegments q ps ++
      [encSeg (decide (ps.length = 0)) true (q + BitVec.ofNat 6 ps.length) p] := by
  rw [messageSegments, List.mapIdx_concat, List.length_append, List.length_singleton]
  congr 1
  · refine List.ext_getElem (by simp [openSegments]) fun k hk _ => ?_
    have hlast : k ≠ ps.length := by
      rw [List.length_mapIdx] at hk
      omega
    simp [openSegments, hlast]
  · simp

namespace Collected

variable {c : Config} {q : Seq} {ps : List (List Byte)} {p : List Byte} {t : State}

theorem of_nil (q : Seq) (hr : t.Running) (h : t.Inv) (hl : t.link = .online) :
    Collected t.cfg q [] t :=
  ⟨hr, h, rfl, hl, fun hne => absurd rfl hne⟩

theorem rxActive (h : Collected c q ps t) (hne : ps ≠ []) : t.rxActive = true :=
  (h.assembling hne).1

/-- The length register counts the bytes collected. -/
theorem rxLen (h : Collected c q ps t) (hne : ps ≠ []) : t.rxLen = ps.flatten.length := by
  obtain ⟨-, -, hbytes⟩ := h.assembling hne
  obtain ⟨-, -, -, -, -, ⟨-, hexact⟩, -⟩ := h.inv
  rw [← hbytes, List.length_map, hexact.length]

/-- Once a segment is in, the only number accepted is the next one, and only while the message fits. -/
theorem accepts_iff (h : Collected c q ps t) (hne : ps ≠ []) (seq : Seq) :
    t.Accepts seq p ↔
      seq = q + BitVec.ofNat 6 ps.length ∧ ps.flatten.length + p.length ≤ c.maxApduSize := by
  obtain ⟨-, hseq, -⟩ := h.assembling hne
  rw [State.Accepts, hseq, h.rxLen hne, h.cfg_eq]

theorem memRead (h : Collected c q ps t) (hne : ps ≠ []) :
    memRead t.cfg t.rxBuf 0 t.rxLen = .ok ps.flatten := by
  obtain ⟨-, -, hbytes⟩ := h.assembling hne
  obtain ⟨-, -, -, -, hlen, ⟨-, hexact⟩, -⟩ := h.inv
  rw [hexact.memRead hlen, hbytes]

theorem bytes_appendPayload (h : Collected c q ps t) (hne : ps ≠ []) (seq : Seq) :
    (t.appendPayload seq p).rxBuf.map Prod.snd = (ps ++ [p]).flatten := by
  obtain ⟨-, -, hbytes⟩ := h.assembling hne
  obtain ⟨-, -, -, -, -, ⟨-, hexact⟩, -⟩ := h.inv
  rw [List.flatten_concat, ← hbytes]
  exact (hexact.append p).2

/-- The next segment without FIN is collected in silence (R133, R135). -/
theorem next (h : Collected c q ps t) (hn : p.length ≤ c.maxSegmentUserDataSize)
    (hfits : (ps ++ [p]).flatten.length ≤ c.maxApduSize) :
    ∃ u, exec (.lRx (encSeg (decide (ps.length = 0)) false (q + BitVec.ofNat 6 ps.length) p)) t =
        .next u ∧ Collected c q (ps ++ [p]) u ∧ u.outputs = t.outputs := by
  have hr := h.running
  have hl := h.online
  have hinv := h.inv
  obtain rfl := h.cfg_eq
  rw [exec_lRx_encSeg]
  by_cases hne : ps = []
  · subst hne
    have hrow := exec_segFirst_of_open (seq := q + BitVec.ofNat 6 0) hr hl hn
    refine ⟨_, hrow, ⟨hr, exec_keeps_inv hinv hrow, rfl, hl, fun _ => ⟨rfl, ?_, ?_⟩⟩, rfl⟩
    · exact inc6_add_ofNat q 0
    · exact (Memory.exact_fresh p).2.trans (by simp)
  · rw [List.flatten_concat, List.length_append] at hfits
    have hrow := exec_segMiddle_of_accepted hr hl hn (h.rxActive hne)
      ((h.accepts_iff hne _).mpr ⟨rfl, hfits⟩)
    rw [decide_eq_false (by simpa using hne)]
    refine ⟨_, hrow, ⟨hr, exec_keeps_inv hinv hrow, rfl, hl, fun _ => ⟨h.rxActive hne, ?_, ?_⟩⟩,
      rfl⟩
    · rw [List.length_append]
      exact inc6_add_ofNat q ps.length
    · exact h.bytes_appendPayload hne _

/-- The next segment with FIN delivers the whole message (R134, R136). -/
theorem last (h : Collected c q ps t) (hn : p.length ≤ c.maxSegmentUserDataSize)
    (hfits : (ps ++ [p]).flatten.length ≤ c.maxApduSize) :
    exec (.lRx (encSeg (decide (ps.length = 0)) true (q + BitVec.ofNat 6 ps.length) p)) t =
      .next (t.rxToIdle.emit (.uRx (ps ++ [p]).flatten)) := by
  have hr := h.running
  have hl := h.online
  obtain rfl := h.cfg_eq
  rw [exec_lRx_encSeg]
  by_cases hne : ps = []
  · subst hne
    refine (exec_segSingle_of_open hr hl hn).trans ?_
    simp
  · rw [List.flatten_concat, List.length_append] at hfits
    rw [decide_eq_false (by simpa using hne), List.flatten_concat]
    exact exec_segLast_of_accepted hr hl hn (h.rxActive hne)
      ((h.accepts_iff hne _).mpr ⟨rfl, hfits⟩) (h.memRead hne)

/-- A transmit event that is no violation leaves what is collected. -/
theorem transmit {e : Instr} {u : State} (h : Collected c q ps t) (he : isTransmit e = true)
    (hu : exec e t = .next u) (hfault : u.fault = 0#4) :
    Collected c q ps u ∧ u.receiveOutputs = t.receiveOutputs := by
  obtain ⟨hhalted, -⟩ | ⟨-, heff⟩ := exec_next hu
  · exact absurd hhalted h.running.not_halted
  obtain ⟨⟨hlink, hf, hcfg, hactive, hseq, hbuf, -⟩, hout⟩ :=
    heff.transmit_keeps_receive he hfault
  refine ⟨⟨?_, exec_keeps_inv h.inv hu, hcfg.trans h.cfg_eq, hlink.trans h.online, ?_⟩, hout⟩
  · rw [State.Running, hcfg, hf]
    exact h.running
  · rw [hactive, hseq, hbuf]
    exact h.assembling

end Collected

/-! ## The receipt of a message (R138, R139) -/

/-- A halted block holds its state to the end of the run (R173). -/
theorem runEvents_of_halted {es : List Instr} {s t : State} (hs : s.Halted)
    (h : runEvents es s = .next t) : t = s := by
  induction es generalizing s with
  | nil => cases h; rfl
  | cons i rest ih =>
    obtain ⟨u, hu, hrun⟩ := runEvents_cons_next h
    rcases exec_next hu with ⟨-, rfl⟩ | ⟨hr, -⟩
    · exact ih hs hrun
    · exact absurd hs hr.not_halted

/-- A run that goes through goes through in its first part. -/
theorem runEvents_append_next {es fs : List Instr} {s t : State}
    (h : runEvents (es ++ fs) s = .next t) :
    ∃ u, runEvents es s = .next u ∧ runEvents fs u = .next t := by
  induction es generalizing s with
  | nil => exact ⟨s, rfl, h⟩
  | cons i rest ih =>
    obtain ⟨w, hw, hrun⟩ := runEvents_cons_next h
    rw [runEvents_cons_of_next hw]
    exact ih hrun

theorem runEvents_singleton (i : Instr) (s : State) : runEvents [i] s = exec i s := by
  rw [runEvents]
  cases exec i s <;> rfl

section
variable {q : Seq} {ps : List (List Byte)} {p : List Byte} {s : State}

/-- What bounds a message bounds its beginning. -/
theorem flatten_length_le_of_concat {n : Nat} (h : (ps ++ [p]).flatten.length ≤ n) :
    ps.flatten.length ≤ n := by
  rw [List.flatten_concat, List.length_append] at h
  omega

/-- By induction on the events, the last one first: a transmit event leaves what is collected, and an
`L.RX` is the next segment. -/
theorem collected_of_run {es : List Instr} {u : State} (hr : s.Running) (h : s.Inv)
    (hl : s.link = .online) (hn : ∀ p ∈ ps, p.length ≤ s.cfg.maxSegmentUserDataSize)
    (hfits : ps.flatten.length ≤ s.cfg.maxApduSize)
    (hes : ∀ e ∈ es, isTransmit e = true ∨ ∃ segment, e = .lRx segment)
    (hrx : es.filter isReceive = (openSegments q ps).map Instr.lRx)
    (hu : runEvents es s = .next u) (hfault : u.fault = 0#4) :
    Collected s.cfg q ps u ∧ u.receiveOutputs = s.receiveOutputs := by
  induction es using List.reverseRecOn generalizing ps u with
  | nil =>
    cases hu
    obtain rfl : ps = [] := by simpa [openSegments] using hrx.symm
    exact ⟨.of_nil q hr h hl, rfl⟩
  | append_singleton es e ih =>
    obtain ⟨hbefore, he⟩ := List.forall_mem_append.mp hes
    obtain ⟨w, hw, hstep⟩ := runEvents_append_next hu
    have hwfault : w.fault = 0#4 := by
      by_contra hhalted
      exact hhalted (runEvents_of_halted hhalted hstep ▸ hfault)
    rw [runEvents_singleton] at hstep
    rw [List.filter_append] at hrx
    rcases he e (List.mem_singleton_self e) with htx | ⟨segment, rfl⟩
    · obtain ⟨hcol, hout⟩ :=
        ih hn hfits hbefore (by simpa [isReceive_of_isTransmit htx] using hrx) hw hwfault
      obtain ⟨hcol', hout'⟩ := hcol.transmit htx hstep hfault
      exact ⟨hcol', hout'.trans hout⟩
    · rcases List.eq_nil_or_concat' ps with rfl | ⟨ps, p, rfl⟩
      · simp [openSegments, isReceive] at hrx
      rw [openSegments_concat, List.map_append] at hrx
      obtain ⟨hrxBefore, hseg⟩ := List.append_inj' hrx rfl
      cases hseg
      obtain ⟨hn, hp⟩ := List.forall_mem_append.mp hn
      obtain ⟨hcol, hout⟩ := ih hn (flatten_length_le_of_concat hfits) hbefore hrxBefore hw
        hwfault
      obtain ⟨v, hv, hcol', hsilent⟩ := hcol.next (hp p (List.mem_singleton_self p)) hfits
      cases hv.symm.trans hstep
      exact ⟨hcol', (congrArg (List.filter isReceiveOutput) hsilent).trans hout⟩

/-- With no other event between them the open segments go through, and nothing at all is emitted. -/
theorem run_openSegments (hr : s.Running) (h : s.Inv) (hl : s.link = .online)
    (hn : ∀ p ∈ ps, p.length ≤ s.cfg.maxSegmentUserDataSize)
    (hfits : ps.flatten.length ≤ s.cfg.maxApduSize) :
    ∃ u, runEvents ((openSegments q ps).map Instr.lRx) s = .next u ∧
      Collected s.cfg q ps u ∧ u.outputs = s.outputs := by
  induction ps using List.reverseRecOn with
  | nil => exact ⟨s, rfl, .of_nil q hr h hl, rfl⟩
  | append_singleton ps p ih =>
    obtain ⟨hn, hp⟩ := List.forall_mem_append.mp hn
    obtain ⟨w, hw, hcol, hout⟩ := ih hn (flatten_length_le_of_concat hfits)
    obtain ⟨u, hu, hcol', hout'⟩ := hcol.next (hp p (List.mem_singleton_self p)) hfits
    refine ⟨u, ?_, hcol', hout'.trans hout⟩
    rw [openSegments_concat, List.map_append, runEvents_append hw]
    exact (runEvents_singleton _ w).trans hu

/-- The whole message in a row: silence until the last segment, which delivers it. -/
theorem run_messageSegments (hr : s.Running) (h : s.Inv) (hl : s.link = .online) (hne : ps ≠ [])
    (hn : ∀ p ∈ ps, p.length ≤ s.cfg.maxSegmentUserDataSize)
    (hfits : ps.flatten.length ≤ s.cfg.maxApduSize) :
    ∃ m t, runEvents ((messageSegments q ps).dropLast.map Instr.lRx) s = .next m ∧
      m.outputs = s.outputs ∧
      runEvents ((messageSegments q ps).map Instr.lRx) s = .next t ∧
      t.outputs = s.outputs ++ [.uRx ps.flatten] ∧ t.rxActive = false := by
  obtain ⟨ps, p, rfl⟩ := (List.eq_nil_or_concat' ps).resolve_left hne
  obtain ⟨hopen, hp⟩ := List.forall_mem_append.mp hn
  obtain ⟨m, hm, hcol, hout⟩ :=
    run_openSegments (q := q) hr h hl hopen (flatten_length_le_of_concat hfits)
  have hlast := hcol.last (hp p (List.mem_singleton_self p)) hfits
  rw [messageSegments_concat, List.dropLast_concat, List.map_append, runEvents_append hm]
  exact ⟨m, _, hm, hout, (runEvents_singleton _ m).trans hlast, congrArg (· ++ _) hout, rfl⟩

/-- Non-FIR segments leave an idle receive path as it is, all of them. -/
theorem run_nonFir_of_idle {rest : List (Bool × Seq × List Byte)} (hr : s.Running)
    (hl : s.link = .online) (hidle : s.rxActive = false)
    (hn : ∀ r ∈ rest, r.2.2.length ≤ s.cfg.maxSegmentUserDataSize) :
    runEvents (rest.map fun r => Instr.lRx (encSeg false r.1 r.2.1 r.2.2)) s = .next s := by
  induction rest with
  | nil => rfl
  | cons r rest ih =>
    obtain ⟨hfirst, hrest⟩ := List.forall_mem_cons.mp hn
    have hstep := (exec_lRx_encSeg false r.1 r.2.1 r.2.2 s).trans
      (exec_nonFir_of_idle r.1 hr hl hfirst hidle)
    rw [List.map_cons, runEvents_cons_of_next hstep]
    exact ih hrest

end

/-- Settles O30: the message is its open segments, which are collected, and the one with FIN, which
delivers. -/
theorem reassemblyDeliversTheMessage : Obligations.ReassemblyDeliversTheMessage := by
  intro q payloads es s u hr hinv hl hne hn hfits hes hrx hu hfault
  obtain ⟨ps, p, rfl⟩ := (List.eq_nil_or_concat' payloads).resolve_left hne
  obtain ⟨hopen, hp⟩ := List.forall_mem_append.mp hn
  rw [messageSegments_concat, List.dropLast_concat] at hrx
  obtain ⟨hcol, hout⟩ := collected_of_run hr hinv hl hopen (flatten_length_le_of_concat hfits)
    hes hrx hu hfault
  rw [messageSegments_concat, List.getLast?_concat]
  exact ⟨hout, _, _, rfl, hcol.last (hp p (List.mem_singleton_self p)) hfits, rfl, rfl, rfl, rfl,
    hfault⟩

/-- Settles O31: the segment is none that the collected message accepts, so it makes the receive path
idle, and an idle path drops the rest. -/
theorem brokenReassemblyIsDroppedSilently : Obligations.BrokenReassemblyIsDroppedSilently := by
  intro q seq fin payload payloads rest s hr hinv hl hne hn hfits hp hrest hbroken
  obtain ⟨u, hu, hcol, hout⟩ := run_openSegments (q := q) hr hinv hl hn hfits
  have hrejects : ¬ u.Accepts seq payload := by
    rw [hcol.accepts_iff hne]
    rintro ⟨hseq, hlen⟩
    exact hbroken.elim (fun hother => hother hseq) (fun hlong => by omega)
  rw [map_openSegments] at hu
  rw [← hcol.cfg_eq] at hp hrest
  have hstep := (exec_lRx_encSeg false fin seq payload u).trans
    (exec_nonFir_of_rejected fin hcol.running hcol.online hp (hcol.rxActive hne) hrejects)
  exact ⟨u, u.rxToIdle, hu, hcol.rxActive hne, hout, hstep, rfl, rfl, rfl, hout,
    hcol.running.2, run_nonFir_of_idle (s := u.rxToIdle) hcol.running hcol.online rfl hrest⟩

/-! ## The round trip (R139) -/

theorem chunksOf_ne_nil (c : Config) (apdu : List Byte) : chunksOf c apdu ≠ [] := by
  rw [← List.length_pos_iff, chunksOf_length]
  exact segmentCount_pos c apdu.length

theorem length_le_of_mem_chunksOf {c : Config} {apdu p : List Byte} (h : p ∈ chunksOf c apdu) :
    p.length ≤ c.maxSegmentUserDataSize := by
  obtain ⟨k, -, rfl⟩ := List.mem_map.mp h
  exact List.length_take_le _ _

/-- Only events of the transmit path carry a segment. -/
theorem filterMap_txSegment_filter (es : List OutEvent) :
    (es.filter isTransmitOutput).filterMap txSegment = es.filterMap txSegment := by
  rw [List.filterMap_filter]
  congr 1
  funext e
  cases e <;> rfl

theorem filterMap_txSegment_map_lTx (segments : List (List Byte)) :
    (segments.map OutEvent.lTx).filterMap txSegment = segments := by
  rw [List.filterMap_map]
  exact List.filterMap_some

/-- The segments a completed send puts out are those of its APDU. -/
theorem SendProgress.newOutputs_segments {s t : State} {apdu : List Byte}
    (h : SendProgress s apdu (segmentCount s.cfg apdu.length) t)
    (hgrow : t.outputs = s.outputs ++ newOutputs s t) :
    (newOutputs s t).filterMap txSegment = segmentsOf s.cfg s.txSeq apdu := by
  have hout := h.outputs_eq
  rw [State.transmitOutputs_append hgrow, if_pos rfl, List.append_assoc, List.append_right_inj,
    List.take_of_length_le (by rw [segmentsOf_length]; omega)] at hout
  rw [← filterMap_txSegment_filter, hout, List.filterMap_append, filterMap_txSegment_map_lTx]
  exact List.append_nil _

/-- Settles O32: what A puts out is the message of the chunks of the APDU, which is what B is given,
and the chunks joined are the APDU. -/
theorem segmentingThenReassemblingIsIdentity :
    Obligations.SegmentingThenReassemblingIsIdentity := by
  intro apdu a b hra hrb hinva hinvb hcfg hla hlb hidle hn
  obtain ⟨ta, hta, hsent⟩ := sendProgress_of_run hra hinva hla hidle hn
    (es := List.replicate (segmentCount a.cfg apdu.length) .lTxdoneOk)
    (fun e he => .inl (List.eq_of_mem_replicate he)) List.count_replicate_self.le
  rw [List.count_replicate_self] at hsent
  have hflat : (chunksOf a.cfg apdu).flatten = apdu := flatten_chunksOf hra.1
  obtain ⟨m, tb, hm, hsilent, htb, hdelivered, hdone⟩ :=
    run_messageSegments (q := a.txSeq) hrb hinvb hlb (chunksOf_ne_nil a.cfg apdu)
      (fun p hp => hcfg ▸ length_le_of_mem_chunksOf hp) (by rw [hflat, ← hcfg]; exact hn)
  rw [hflat] at hdelivered
  refine ⟨ta, hta, ?_⟩
  rw [hsent.newOutputs_segments (runEvents_outputs_grow hta)]
  exact ⟨m, tb, hm, newOutputs_of_outputs_eq (by rw [hsilent, List.append_nil]), htb,
    newOutputs_of_outputs_eq hdelivered, hdone⟩

end Sys2Proof.Machine

namespace Sys2Proof.Machine

/-! ## Two states that answer alike (R158)

The relation goes through each operation once: the Facade, a test that both states decide alike, the
gate of R131. A row's proof is then its tests in order, and the writes at the end of each branch. -/

/-- The answers of `s` and `s'` are alike: both a next state, `Same` again and with the same outputs
added, or the same stop. -/
def AnswersAlike (Same : State → State → Prop) (s s' : State)
    (o o' : Host.Outcome State Fault Refusal) : Prop :=
  (∃ t t', o = .next t ∧ o' = .next t' ∧ Same t t' ∧ newOutputs s t = newOutputs s' t') ∨
    (∃ f, o = .fault f ∧ o' = .fault f) ∨ (∃ r, o = .refused r ∧ o' = .refused r)

namespace AnswersAlike

section
variable {Same : State → State → Prop} {s s' t t' : State}
  {o o' a a' b b' : Host.Outcome State Fault Refusal}

theorem stop (f : Fault) : AnswersAlike Same s s' (.fault f) (.fault f) := .inr (.inl ⟨f, rfl, rfl⟩)

theorem refuse (r : Refusal) : AnswersAlike Same s s' (.refused r) (.refused r) :=
  .inr (.inr ⟨r, rfl, rfl⟩)

theorem emits (es : List OutEvent) (h : Same t t') (hout : t.outputs = s.outputs ++ es)
    (hout' : t'.outputs = s'.outputs ++ es) : AnswersAlike Same s s' (.next t) (.next t') :=
  .inl ⟨t, t', rfl, rfl, h,
    (newOutputs_of_outputs_eq hout).trans (newOutputs_of_outputs_eq hout').symm⟩

theorem silent (h : Same t t') (hout : t.outputs = s.outputs) (hout' : t'.outputs = s'.outputs) :
    AnswersAlike Same s s' (.next t) (.next t') :=
  emits [] h (by rw [hout, List.append_nil]) (by rw [hout', List.append_nil])

/-- Both states decide a test alike, and each branch answers alike. -/
theorem test {p p' : Prop} [Decidable p] [Decidable p'] (hp : p ↔ p')
    (ha : p → AnswersAlike Same s s' a a') (hb : AnswersAlike Same s s' b b') :
    AnswersAlike Same s s' (if p then a else b) (if p' then a' else b') := by
  by_cases h : p
  · rw [if_pos h, if_pos (hp.mp h)]
    exact ha h
  · rw [if_neg h, if_neg (fun h' => h (hp.mpr h'))]
    exact hb

/-- The Facade reads the configuration and `fault` alone. -/
theorem facade (h : Same s s') (hcfg : s.cfg = s'.cfg) (hfault : s.fault = s'.fault)
    (ho : AnswersAlike Same s s' o o') :
    AnswersAlike Same s s' (facade s o) (facade s' o') := by
  refine test (by rw [hcfg]) (fun _ => ?_) (refuse _)
  exact test (by rw [State.Halted, hfault]) (fun _ => silent h rfl rfl) ho

end

end AnswersAlike

/-! ### The transmit path -/

section
variable {s s' : State}

theorem SameTransmit.raise (h : SameTransmit s s') (c : Cause) :
    SameTransmit (s.raise c) (s'.raise c) := by
  obtain ⟨hlink, -, hrest⟩ := h
  exact ⟨hlink, rfl, hrest⟩

theorem SameTransmit.txToIdle (h : SameTransmit s s') :
    SameTransmit s.txToIdle s'.txToIdle := by
  obtain ⟨hlink, hfault, hcfg, hseq, -⟩ := h
  exact ⟨hlink, hfault, hcfg, hseq, rfl, rfl, rfl, rfl⟩

theorem SameTransmit.takeApdu (h : SameTransmit s s') (apdu : List Byte) :
    SameTransmit (s.takeApdu apdu) (s'.takeApdu apdu) := by
  obtain ⟨hlink, hfault, hcfg, hseq, -, -, -, hpos⟩ := h
  exact ⟨hlink, hfault, hcfg, hseq, rfl, rfl, rfl, hpos⟩

theorem SameTransmit.emitChunk (h : SameTransmit s s') (a : List Byte) (pos : Nat)
    (first : Bool) : SameTransmit (emitChunk a pos first s) (emitChunk a pos first s') := by
  obtain ⟨hlink, hfault, hcfg, hseq, hbusy, hbuf, hlen, -⟩ := h
  exact ⟨hlink, hfault, hcfg, by simp [hseq], hbusy, hbuf, hlen, by simp [hcfg]⟩

/-- A violation in both states is alike. -/
theorem SameTransmit.raise_alike (h : SameTransmit s s') (c : Cause) :
    AnswersAlike SameTransmit s s' (.next (s.raise c)) (.next (s'.raise c)) :=
  .silent (h.raise c) rfl rfl

/-- The segment that `EMIT_CHUNK` hands over depends on the configuration and `tx_seq` alone. -/
theorem SameTransmit.emitChunk_alike {r r' : State} (h : SameTransmit r r') (a : List Byte)
    (pos : Nat) (first : Bool) (hout : r.outputs = s.outputs) (hout' : r'.outputs = s'.outputs) :
    AnswersAlike SameTransmit s s' (.next (Machine.emitChunk a pos first r))
      (.next (Machine.emitChunk a pos first r')) := by
  refine .emits _ (h.emitChunk a pos first) (by rw [emitChunk_outputs, hout]) ?_
  obtain ⟨-, -, hcfg, hseq, -⟩ := h
  rw [emitChunk_outputs, hout', hcfg, hseq]

theorem execUSend_alike (apdu : List Byte) (h : SameTransmit s s') :
    AnswersAlike SameTransmit s s' (execUSend apdu s) (execUSend apdu s') := by
  have ⟨hlink, hfault, hcfg, _, hbusy, _⟩ := h
  refine .facade h hcfg hfault (.test (by rw [hlink]) (fun _ => h.raise_alike _)
    (.test (by rw [hbusy]) (fun _ => h.raise_alike _)
      (.test (by rw [hcfg]) (fun _ => h.raise_alike _) ?_)))
  have hwrite : memWrite s'.cfg Memory.empty 0 apdu = memWrite s.cfg Memory.empty 0 apdu := by
    rw [hcfg]
  rw [hwrite]
  cases hbuf : memWrite s.cfg Memory.empty 0 apdu with
  | error f => exact .stop f
  | ok buf =>
    obtain ⟨-, rfl⟩ := memWrite_ok_iff.mp hbuf
    exact (h.takeApdu apdu).emitChunk_alike apdu 0 true rfl rfl

theorem execLTxdoneOk_alike (h : SameTransmit s s') :
    AnswersAlike SameTransmit s s' (execLTxdoneOk s) (execLTxdoneOk s') := by
  have ⟨_, hfault, hcfg, _, hbusy, hbuf, hlen, hpos⟩ := h
  refine .facade h hcfg hfault (.test (by rw [hbusy]) (fun _ => h.raise_alike _)
    (.test (by rw [State.ChunksRemain, hpos, hlen]) (fun _ => ?_)
      (.emits [.uTxdoneOk] h.txToIdle rfl rfl)))
  have hread : memRead s'.cfg s'.txBuf 0 s'.txLen = memRead s.cfg s.txBuf 0 s.txLen := by
    rw [hcfg, hbuf, hlen]
  rw [hread, ← hpos]
  cases memRead s.cfg s.txBuf 0 s.txLen with
  | error f => exact .stop f
  | ok a => exact h.emitChunk_alike a s.txPos false rfl rfl

theorem execLTxdoneFail_alike (h : SameTransmit s s') :
    AnswersAlike SameTransmit s s' (execLTxdoneFail s) (execLTxdoneFail s') := by
  have ⟨_, hfault, hcfg, _, hbusy, _⟩ := h
  exact .facade h hcfg hfault (.test (by rw [hbusy]) (fun _ => h.raise_alike _)
    (.emits [.uTxdoneFail] h.txToIdle rfl rfl))

theorem exec_transmit_alike {i : Instr} (hi : isTransmit i = true) (h : SameTransmit s s') :
    AnswersAlike SameTransmit s s' (exec i s) (exec i s') := by
  cases i with
  | uSend apdu => exact execUSend_alike apdu h
  | lTxdoneOk => exact execLTxdoneOk_alike h
  | lTxdoneFail => exact execLTxdoneFail_alike h
  | _ => cases hi

end

/-! ### The receive path -/

section
variable {s s' : State}

theorem SameReceive.raise (h : SameReceive s s') (c : Cause) :
    SameReceive (s.raise c) (s'.raise c) := by
  obtain ⟨hlink, -, hrest⟩ := h
  exact ⟨hlink, rfl, hrest⟩

theorem SameReceive.rxToIdle (h : SameReceive s s') : SameReceive s.rxToIdle s'.rxToIdle := by
  obtain ⟨hlink, hfault, hcfg, -⟩ := h
  exact ⟨hlink, hfault, hcfg, rfl, rfl, rfl, rfl⟩

theorem SameReceive.startReassembly (h : SameReceive s s') (seq : Seq) (payload : List Byte) :
    SameReceive (s.startReassembly seq payload) (s'.startReassembly seq payload) := by
  obtain ⟨hlink, hfault, hcfg, -⟩ := h
  exact ⟨hlink, hfault, hcfg, rfl, rfl, rfl, rfl⟩

theorem SameReceive.appendPayload (h : SameReceive s s') (seq : Seq) (payload : List Byte) :
    SameReceive (s.appendPayload seq payload) (s'.appendPayload seq payload) := by
  obtain ⟨hlink, hfault, hcfg, hactive, -, hbuf, hlen⟩ := h
  exact ⟨hlink, hfault, hcfg, hactive, rfl, by simp [State.appendPayload, hbuf, hlen],
    by simp [State.appendPayload, hlen]⟩

theorem SameReceive.accepts_iff (h : SameReceive s s') (seq : Seq) (payload : List Byte) :
    s.Accepts seq payload ↔ s'.Accepts seq payload := by
  obtain ⟨-, -, hcfg, -, hseq, -, hlen⟩ := h
  rw [State.Accepts, State.Accepts, hcfg, hseq, hlen]

/-- A violation in both states is alike. -/
theorem SameReceive.raise_alike (h : SameReceive s s') (c : Cause) :
    AnswersAlike SameReceive s s' (.next (s.raise c)) (.next (s'.raise c)) :=
  .silent (h.raise c) rfl rfl

theorem receiveFirst_alike (seq : Seq) (payload : List Byte) (h : SameReceive s s') :
    AnswersAlike SameReceive s s' (receiveFirst seq payload s) (receiveFirst seq payload s') := by
  have ⟨_, _, hcfg, _⟩ := h
  have hwrite : memWrite s'.cfg Memory.empty 0 payload =
      memWrite s.cfg Memory.empty 0 payload := by rw [hcfg]
  rw [receiveFirst, receiveFirst, hwrite]
  cases hbuf : memWrite s.cfg Memory.empty 0 payload with
  | error f => exact .stop f
  | ok buf =>
    obtain ⟨-, rfl⟩ := memWrite_ok_iff.mp hbuf
    exact .silent (h.startReassembly seq payload) rfl rfl

theorem receiveMiddle_alike (seq : Seq) (payload : List Byte) (h : SameReceive s s') :
    AnswersAlike SameReceive s s' (receiveMiddle seq payload s)
      (receiveMiddle seq payload s') := by
  have ⟨_, _, _, hactive, _⟩ := h
  refine .test (by rw [hactive]) (fun _ => .silent h rfl rfl)
    (.test (h.accepts_iff seq payload) (fun haccepts => ?_) (.silent h.rxToIdle rfl rfl))
  have haccepts' := (h.accepts_iff seq payload).mp haccepts
  rw [memWrite_of_le haccepts.2, memWrite_of_le haccepts'.2]
  exact .silent (h.appendPayload seq payload) rfl rfl

theorem receiveLast_alike (seq : Seq) (payload : List Byte) (h : SameReceive s s') :
    AnswersAlike SameReceive s s' (receiveLast seq payload s) (receiveLast seq payload s') := by
  have ⟨_, _, hcfg, hactive, _, hbuf, hlen⟩ := h
  refine .test (by rw [hactive]) (fun _ => .silent h rfl rfl)
    (.test (h.accepts_iff seq payload) (fun _ => ?_) (.silent h.rxToIdle rfl rfl))
  have hread : memRead s'.cfg s'.rxBuf 0 s'.rxLen = memRead s.cfg s.rxBuf 0 s.rxLen := by
    rw [hcfg, hbuf, hlen]
  rw [hread]
  cases memRead s.cfg s.rxBuf 0 s.rxLen with
  | error f => exact .stop f
  | ok a => exact .emits [.uRx (a ++ payload)] h.rxToIdle rfl rfl

theorem receiveDecoded_alike (g : Option Segment) (h : SameReceive s s') :
    AnswersAlike SameReceive s s' (receiveDecoded g s) (receiveDecoded g s') := by
  match g with
  | none => exact .silent h rfl rfl
  | some ⟨true, false, seq, payload⟩ => exact receiveFirst_alike seq payload h
  | some ⟨true, true, _, payload⟩ => exact .emits [.uRx payload] h.rxToIdle rfl rfl
  | some ⟨false, false, seq, payload⟩ => exact receiveMiddle_alike seq payload h
  | some ⟨false, true, seq, payload⟩ => exact receiveLast_alike seq payload h

/-- The gate of R131 reads `link` and the configuration alone. -/
theorem gated_alike (len : Nat) (g : Option Segment) (h : SameReceive s s') :
    AnswersAlike SameReceive s s' (facade s (receiveGate s len (receiveDecoded g s)))
      (facade s' (receiveGate s' len (receiveDecoded g s'))) := by
  have ⟨hlink, hfault, hcfg, _⟩ := h
  exact .facade h hcfg hfault (.test (by rw [hlink]) (fun _ => h.raise_alike _)
    (.test (by rw [hcfg]) (fun _ => h.raise_alike _) (receiveDecoded_alike g h)))

/-- The events of the receive path are `L.RX` and the class rows. -/
theorem isReceive_cases {i : Instr} (hi : isReceive i = true) :
    (∃ bytes, i = .lRx bytes) ∨ ∃ g : Segment, i = g.instr := by
  cases i with
  | lRx bytes => exact .inl ⟨bytes, rfl⟩
  | segMiddle seq payload => exact .inr ⟨⟨false, false, seq, payload⟩, rfl⟩
  | segLast seq payload => exact .inr ⟨⟨false, true, seq, payload⟩, rfl⟩
  | segFirst seq payload => exact .inr ⟨⟨true, false, seq, payload⟩, rfl⟩
  | segSingle seq payload => exact .inr ⟨⟨true, true, seq, payload⟩, rfl⟩
  | _ => cases hi

theorem exec_receive_alike {i : Instr} (hi : isReceive i = true) (h : SameReceive s s') :
    AnswersAlike SameReceive s s' (exec i s) (exec i s') := by
  rcases isReceive_cases hi with ⟨bytes, rfl⟩ | ⟨g, rfl⟩
  · exact gated_alike bytes.length (decSeg bytes) h
  · rw [exec_segment, exec_segment]
    exact gated_alike _ (some g) h

end

/-- Settles O40: each test of a row reads only what the two states agree on. -/
theorem pathsDoNotReadEachOther : Obligations.PathsDoNotReadEachOther :=
  fun _ _ _ => ⟨exec_transmit_alike, exec_receive_alike⟩

end Sys2Proof.Machine

namespace Sys2Proof.Machine

/-! ## The gate table and the faults (R157) -/

theorem Segment.instr_isInput (g : Segment) : g.instr.isInput = false := by
  obtain ⟨fir, fin, seq, payload⟩ := g
  cases fir <;> cases fin <;> rfl

theorem Segment.instr_isReceive (g : Segment) : isReceive g.instr = true := by
  obtain ⟨fir, fin, seq, payload⟩ := g
  cases fir <;> cases fin <;> rfl

theorem OutEvent.instr_isInput (e : OutEvent) : e.instr.isInput = false := by
  cases e <;> rfl

/-- An input row that receives a segment is the `L.RX` of its bytes. -/
theorem lRx_of_received {i : Instr} {g : Segment} (hi : i.isInput = true)
    (hrow : i = g.instr ∨ ∃ bytes, i = .lRx bytes ∧ decSeg bytes = some g) :
    ∃ bytes, i = .lRx bytes ∧ decSeg bytes = some g := by
  rcases hrow with rfl | hbytes
  · simp [Segment.instr_isInput] at hi
  · exact hbytes

theorem length_of_decSeg {bytes : List Byte} {g : Segment} (h : decSeg bytes = some g) :
    bytes.length = 1 + g.payload.length := by
  rw [← encSeg_of_decSeg h, encSeg_length]

/-- Each case of `Effect` but the violation asks for what the table asks for. -/
theorem Effect.valid_of_unfaulted {i : Instr} {s t : State} (he : Effect i s t)
    (hi : i.isInput = true) (hfault : t.fault = 0#4) : validEvent s i := by
  cases he with
  | violation _ _ c => exact absurd hfault (s.raise_fault_ne_zero c)
  | send _ _ hl hb hn => exact ⟨hl, hb, hn⟩
  | nextChunk _ _ hb | sendDone _ hb | sendFailed _ hb => exact hb
  | linkUp _ hl | linkDown _ hl => exact hl
  | receiveEmpty _ hl => exact ⟨hl, Nat.zero_le _⟩
  | received _ g _ _ hrow hl hn =>
    obtain ⟨bytes, rfl, hdec⟩ := lRx_of_received hi hrow
    exact ⟨hl, by rw [length_of_decSeg hdec]; omega⟩
  | output e => simp [OutEvent.instr_isInput] at hi

/-- Only a violation writes `fault`. -/
theorem Effect.violation_or_keeps_fault {i : Instr} {s t : State} (he : Effect i s t) :
    ((∃ c, t = s.raise c) ∧ (i.isInput = true → ¬ validEvent s i)) ∨ t.fault = s.fault := by
  cases he with
  | violation _ _ c _ hv => exact .inl ⟨⟨c, rfl⟩, hv⟩
  | send | nextChunk | sendDone | sendFailed | linkUp | linkDown | receiveEmpty | output =>
    exact .inr rfl
  | received _ _ _ _ _ _ _ hd =>
    obtain ⟨⟨-, hfault, -⟩, -⟩ := receiveDecoded_keeps_transmit hd
    exact .inr hfault

/-- Settles O35: a row that is no violation leaves `fault` at 0, and a violation is raised only for an
event that the table calls invalid. -/
theorem gateTableDecidesFaults : Obligations.GateTableDecidesFaults := by
  intro i s hi hr hinv
  obtain ⟨t, ht⟩ := exec_input_completes hi hr.1 hinv
  refine ⟨t, ht, ?_⟩
  rcases exec_next ht with ⟨hhalted, -⟩ | ⟨-, he⟩
  · exact absurd hhalted hr.not_halted
  · refine ⟨he.valid_of_unfaulted hi, fun hv => ?_⟩
    rcases he.violation_or_keeps_fault with ⟨-, hinvalid⟩ | hfault
    · exact absurd hv (hinvalid hi)
    · exact hfault.trans hr.2

/-! ## The one output of a step (R152) -/

/-- What an input row emits when it raises no violation. An illegal row always raises one. -/
def RowEmits (out : List OutEvent) : Instr → Prop
  | .uSend _ => ∃ segment, out = [.lTx segment]
  | .lTxdoneOk => (∃ segment, out = [.lTx segment]) ∨ out = [.uTxdoneOk]
  | .lTxdoneFail => out = [.uTxdoneFail]
  | .lRx _ => (∃ apdu, out = [.uRx apdu]) ∨ out = []
  | .lLinkUp => out = [.uLinkUp]
  | .lLinkDown => out = [.uLinkDown]
  | _ => False

theorem newOutputs_of_silent {s t : State} (h : t.outputs = s.outputs) : newOutputs s t = [] :=
  newOutputs_of_outputs_eq (h.trans (List.append_nil _).symm)

theorem Effect.rowEmits {i : Instr} {s t : State} (he : Effect i s t) (hi : i.isInput = true)
    (hfault : t.fault = 0#4) : RowEmits (newOutputs s t) i := by
  cases he with
  | violation _ _ c => exact absurd hfault (s.raise_fault_ne_zero c)
  | send => exact ⟨_, newOutputs_of_outputs_eq rfl⟩
  | nextChunk => exact .inl ⟨_, newOutputs_of_outputs_eq rfl⟩
  | sendDone => exact .inr (newOutputs_of_outputs_eq rfl)
  | sendFailed | linkUp | linkDown => exact newOutputs_of_outputs_eq rfl
  | receiveEmpty => exact .inr (newOutputs_of_silent rfl)
  | received _ g _ _ hrow _ _ hd =>
    obtain ⟨bytes, rfl, -⟩ := lRx_of_received hi hrow
    rcases (receiveDecoded_txBusy_outputs hd).2 with hout | ⟨a, hout⟩
    · exact .inr (newOutputs_of_silent hout)
    · exact .inl ⟨a, newOutputs_of_outputs_eq hout⟩
  | output e => simp [OutEvent.instr_isInput] at hi

theorem RowEmits.length_le_one {out : List OutEvent} {i : Instr} (h : RowEmits out i) :
    out.length ≤ 1 := by
  cases i with
  | uSend => obtain ⟨segment, rfl⟩ := h; exact le_rfl
  | lTxdoneOk => rcases h with ⟨segment, rfl⟩ | rfl <;> exact le_rfl
  | lRx => rcases h with ⟨apdu, rfl⟩ | rfl <;> simp
  | lTxdoneFail | lLinkUp | lLinkDown => cases h; exact le_rfl
  | _ => cases h

/-- Settles O36: a halted block and a violation add nothing, and any other answer of an input row adds
what the row emits. -/
theorem oneOutputPerStep : Obligations.OneOutputPerStep := by
  intro i s t hi ht
  rcases exec_next ht with ⟨hhalted, rfl⟩ | ⟨hr, he⟩
  · exact ⟨[], (List.append_nil _).symm, Nat.zero_le 1, fun _ => rfl,
      fun hfault => absurd hfault hhalted⟩
  rcases he.violation_or_keeps_fault with ⟨⟨c, rfl⟩, -⟩ | hkeeps
  · exact ⟨[], (List.append_nil _).symm, Nat.zero_le 1, fun _ => rfl,
      fun _ hfault => absurd hfault (s.raise_fault_ne_zero c)⟩
  have hfault : t.fault = 0#4 := hkeeps.trans hr.2
  have hrow := he.rowEmits hi hfault
  refine ⟨newOutputs s t, he.outputs_grow, hrow.length_le_one, ?_, fun _ _ => ?_⟩
  · rintro (hs | ht)
    · exact absurd hr.2 hs
    · exact absurd hfault ht
  · refine ⟨?_, ?_, ?_, ?_, ?_, ?_⟩
    all_goals
      intros
      subst i
      exact hrow

/-! ## Where each output comes from, and the state it leaves (R160 to R164) -/

/-- The event that emits an output, what it found and what it leaves. -/
def OutputOrigin (i : Instr) (s t : State) : OutEvent → Prop
  | .lTx segment =>
    (((∃ apdu, i = .uSend apdu) ∧ s.txBusy = false) ∨ (i = .lTxdoneOk ∧ s.txBusy = true)) ∧
      (∃ fin payload, segment = encSeg (!s.txBusy) fin s.txSeq payload) ∧
      1 ≤ segment.length ∧ segment.length ≤ 1 + s.cfg.maxSegmentUserDataSize ∧
      t.link = .online ∧ t.txBusy = true
  | .uRx apdu =>
    (∃ segment, i = .lRx segment) ∧ apdu.length ≤ s.cfg.maxApduSize ∧ t.rxActive = false
  | .uTxdoneOk => i = .lTxdoneOk ∧ s.txBusy = true ∧ t.txBusy = false
  | .uTxdoneFail => i = .lTxdoneFail ∧ s.txBusy = true ∧ t.txBusy = false
  | .uLinkUp => i = .lLinkUp ∧ t.link = .online ∧ t.txSeq = 0#6
  | .uLinkDown => i = .lLinkDown ∧ t.link = .offline ∧ t.txBusy = false ∧ t.rxActive = false

theorem eq_of_mem_newOutputs {s t : State} {e e' : OutEvent}
    (hout : t.outputs = s.outputs ++ [e']) (hmem : e ∈ newOutputs s t) : e = e' := by
  rw [newOutputs_of_outputs_eq hout] at hmem
  exact List.mem_singleton.mp hmem

theorem not_mem_newOutputs_of_silent {s t : State} {e : OutEvent} (hout : t.outputs = s.outputs) :
    e ∉ newOutputs s t := by
  rw [newOutputs_of_silent hout]
  exact List.not_mem_nil

/-- What the receipt of a segment adds is a message that fits, and the receive path is then idle. -/
theorem receiveDecoded_adds {g : Segment} {s t : State} {e : OutEvent}
    (h : receiveDecoded (some g) s = .next t) (hn : g.payload.length ≤ s.cfg.maxApduSize)
    (hmem : e ∈ newOutputs s t) :
    ∃ apdu, e = .uRx apdu ∧ apdu.length ≤ s.cfg.maxApduSize ∧ t.rxActive = false := by
  rcases receiveDecoded_next h with ⟨-, -, rfl⟩ | ⟨-, -, rfl⟩ | ⟨-, -, rfl⟩ | ⟨-, -, -, -, rfl⟩ |
    ⟨-, -, -, ⟨-, hfits⟩, a, ha, rfl⟩ | ⟨-, -, -, rfl⟩
  case inr.inl => exact ⟨g.payload, eq_of_mem_newOutputs rfl hmem, hn, rfl⟩
  case inr.inr.inr.inr.inl =>
    obtain ⟨-, hlen, -⟩ := memRead_ok_iff.mp ha
    exact ⟨_, eq_of_mem_newOutputs rfl hmem, by rwa [List.length_append, hlen], rfl⟩
  all_goals exact absurd hmem (not_mem_newOutputs_of_silent rfl)

/-- The segment of `EMIT_CHUNK` carries `tx_seq`, and FIR exactly if it is the first. -/
theorem emitChunk_adds_encSeg {a : List Byte} {pos : Nat} {first : Bool} {s r : State}
    {segment : List Byte} (hout : r.outputs = s.outputs) (hseq : r.txSeq = s.txSeq)
    (hmem : .lTx segment ∈ newOutputs s (emitChunk a pos first r)) :
    ∃ fin payload, segment = encSeg first fin s.txSeq payload := by
  have h := eq_of_mem_newOutputs ((emitChunk_outputs a pos first r).trans (by rw [hout])) hmem
  cases h
  exact ⟨_, _, by rw [hseq]⟩

theorem Effect.outputOrigin {i : Instr} {s t : State} {e : OutEvent} (he : Effect i s t)
    (hi : i.isInput = true) (hc : s.cfg.WellFormed) (hinv : s.Inv) (hmem : e ∈ newOutputs s t) :
    OutputOrigin i s t e := by
  cases he with
  | violation | receiveEmpty => exact absurd hmem (not_mem_newOutputs_of_silent rfl)
  | send apdu _ hl hb =>
    cases eq_of_mem_newOutputs (emitChunk_outputs ..) hmem
    obtain ⟨-, hmin, hmax⟩ := emitChunk_adds_segment (s := s) rfl hmem
    exact ⟨.inl ⟨⟨apdu, rfl⟩, hb⟩, by rw [hb]; exact emitChunk_adds_encSeg rfl rfl hmem,
      hmin, hmax, hl, rfl⟩
  | nextChunk _ _ hb =>
    cases eq_of_mem_newOutputs (emitChunk_outputs ..) hmem
    obtain ⟨-, hmin, hmax⟩ := emitChunk_adds_segment (s := s) rfl hmem
    exact ⟨.inr ⟨rfl, hb⟩, by rw [hb]; exact emitChunk_adds_encSeg rfl rfl hmem,
      hmin, hmax, hinv.online_of_busy hb, hb⟩
  | sendDone _ hb | sendFailed _ hb =>
    cases eq_of_mem_newOutputs (State.emit_outputs ..) hmem
    exact ⟨rfl, hb, rfl⟩
  | linkUp =>
    cases eq_of_mem_newOutputs (State.emit_outputs ..) hmem
    exact ⟨rfl, rfl, rfl⟩
  | linkDown =>
    cases eq_of_mem_newOutputs (State.emit_outputs ..) hmem
    exact ⟨rfl, rfl, rfl, rfl⟩
  | received _ g _ _ hrow _ hn hd =>
    obtain ⟨bytes, rfl, -⟩ := lRx_of_received hi hrow
    obtain ⟨apdu, rfl, hfits, hidle⟩ := receiveDecoded_adds hd (hn.trans hc.2) hmem
    exact ⟨⟨bytes, rfl⟩, hfits, hidle⟩
  | output e => simp [OutEvent.instr_isInput] at hi

/-- Settles O38: each clause is the origin of one output event. -/
theorem outputsComeFromTheirEvents : Obligations.OutputsComeFromTheirEvents := by
  intro i s t e hi hinv ht hmem
  rcases exec_next ht with ⟨-, rfl⟩ | ⟨⟨hc, -⟩, he⟩
  · exact absurd hmem (not_mem_newOutputs_of_silent rfl)
  have horigin := he.outputOrigin hi hc hinv hmem
  refine ⟨?_, ?_, ?_, ?_, ?_, ?_⟩
  all_goals
    intros
    subst e
    exact horigin

/-! ## What each path leaves alone (R158) -/

/-- A transmit row writes no receive register, by a violation or not. -/
theorem Effect.transmit_frame {i : Instr} {s t : State} (he : Effect i s t) (hr : s.Running)
    (hi : isTransmit i = true) :
    t.link = s.link ∧ t.rxActive = s.rxActive ∧ t.rxSeq = s.rxSeq ∧ t.rxLen = s.rxLen ∧
      t.rxBuf = s.rxBuf := by
  rcases he.violation_or_keeps_fault with ⟨⟨c, rfl⟩, -⟩ | hkeeps
  · exact ⟨rfl, rfl, rfl, rfl, rfl⟩
  · obtain ⟨⟨hlink, -, -, hactive, hseq, hbuf, hlen⟩, -⟩ :=
      he.transmit_keeps_receive hi (hkeeps.trans hr.2)
    exact ⟨hlink, hactive, hseq, hlen, hbuf⟩

/-- A receive row writes no transmit register, by a violation or not. -/
theorem Effect.receive_frame {i : Instr} {s t : State} (he : Effect i s t)
    (hi : isReceive i = true) :
    t.link = s.link ∧ t.txSeq = s.txSeq ∧ t.txBusy = s.txBusy ∧ t.txLen = s.txLen ∧
      t.txPos = s.txPos ∧ t.txBuf = s.txBuf := by
  cases he with
  | violation | receiveEmpty => exact ⟨rfl, rfl, rfl, rfl, rfl, rfl⟩
  | received _ _ _ _ _ _ _ hd =>
    obtain ⟨⟨hlink, -, -, hseq, hbusy, hbuf, hlen, hpos⟩, -⟩ := receiveDecoded_keeps_transmit hd
    exact ⟨hlink, hseq, hbusy, hlen, hpos, hbuf⟩
  | send | nextChunk | sendDone | sendFailed | linkUp | linkDown => cases hi
  | output e => cases e <;> cases hi

theorem Effect.output_frame {i : Instr} {s t : State} (he : Effect i s t)
    (hinput : i.isInput = false) (hreceive : isReceive i = false) :
    t = { s with outputs := t.outputs } := by
  cases he with
  | output => rfl
  | violation _ _ _ hi => simp [hinput, hreceive] at hi
  | received _ g _ _ hrow =>
    rcases hrow with rfl | ⟨bytes, rfl, -⟩
    · simp [Segment.instr_isReceive] at hreceive
    · cases hinput
  | send | nextChunk | sendDone | sendFailed | linkUp | linkDown | receiveEmpty => cases hinput

/-- Only the two link rows write `link`. -/
theorem Effect.link_changes {i : Instr} {s t : State} (he : Effect i s t)
    (hlink : t.link ≠ s.link) :
    (i = .lLinkUp ∧ s.link = .offline ∧ t.link = .online) ∨
      (i = .lLinkDown ∧ s.link = .online ∧ t.link = .offline) := by
  cases he with
  | linkUp _ hl => exact .inl ⟨rfl, hl, rfl⟩
  | linkDown _ hl => exact .inr ⟨rfl, hl, rfl⟩
  | received _ _ _ _ _ _ _ hd =>
    obtain ⟨⟨hkeeps, -⟩, -⟩ := receiveDecoded_keeps_transmit hd
    exact absurd hkeeps hlink
  | violation | send | nextChunk | sendDone | sendFailed | receiveEmpty | output =>
    exact absurd rfl hlink

/-- Settles O39: a halted block holds its state, and the four clauses are the frames of `Effect`. -/
theorem pathsLeaveEachOtherAlone : Obligations.PathsLeaveEachOtherAlone := by
  intro i s t ht
  rcases exec_next ht with ⟨-, rfl⟩ | ⟨hr, he⟩
  · exact ⟨fun _ => ⟨rfl, rfl, rfl, rfl, fun _ => rfl⟩,
      fun _ => ⟨rfl, rfl, rfl, rfl, rfl, fun _ => rfl⟩, fun _ _ => rfl,
      fun hlink => absurd rfl hlink⟩
  refine ⟨fun hi => ?_, fun hi => ?_, he.output_frame, he.link_changes⟩
  · obtain ⟨hlink, hactive, hseq, hlen, hbuf⟩ := he.transmit_frame hr hi
    exact ⟨hlink, hactive, hseq, hlen, fun a => by rw [hbuf]⟩
  · obtain ⟨hlink, hseq, hbusy, hlen, hpos, hbuf⟩ := he.receive_frame hi
    exact ⟨hlink, hseq, hbusy, hlen, hpos, fun a => by rw [hbuf]⟩

/-! ## Every input and class row completes (R54, R150) -/

theorem exec_segment_completes (g : Segment) {s : State} (hc : s.cfg.WellFormed) (h : s.Inv) :
    ∃ t, exec g.instr s = .next t := by
  rw [exec_segment]
  refine facade_completes hc (receiveGate_completes fun hlen => receiveDecoded_completes h ?_)
  have := hc.2
  omega

/-- Settles O53: the events of the receive path that are no input rows are the class rows. -/
theorem everyInputEventCompletes : Obligations.EveryInputEventCompletes := by
  rintro i s (hi | hi) hr hinv
  · exact exec_input_completes hi hr.1 hinv
  · rcases isReceive_cases hi with ⟨bytes, rfl⟩ | ⟨g, rfl⟩
    · exact execLRx_completes bytes hr.1 hinv
    · exact exec_segment_completes g hr.1 hinv

/-! ## The two link rows and the output rows, one equation a case (R155, R156, R160 to R164) -/

theorem exec_lLinkUp_of_online {s : State} (hr : s.Running) (hl : s.link = .online) :
    exec .lLinkUp s = .next (s.raise .linkupOnline) :=
  (facade_of_running hr).trans (if_pos hl)

theorem exec_lLinkDown_of_offline {s : State} (hr : s.Running) (hl : s.link = .offline) :
    exec .lLinkDown s = .next (s.raise .linkdownOffline) :=
  (facade_of_running hr).trans (if_pos hl)

/-- Settles O33: the two cases of the row. -/
theorem linkUpInitialisesAndForwards : Obligations.LinkUpInitialisesAndForwards :=
  fun _ hr => ⟨exec_lLinkUp_of_online hr, fun hl => ⟨_, exec_lLinkUp_of_offline hr hl, rfl⟩⟩

/-- Settles O34: the two cases of the row. -/
theorem linkDownCancelsAndForwards : Obligations.LinkDownCancelsAndForwards :=
  fun _ hr => ⟨exec_lLinkDown_of_offline hr, fun hl => ⟨_, exec_lLinkDown_of_online hr hl, rfl⟩⟩

/-- An output row whose operand its format admits (R77) is the emission of its event. -/
theorem exec_output {e : OutEvent} {s : State} (hr : s.Running)
    (hfits : e.instr.wellFormed s.cfg = true) : exec e.instr s = .next (s.emit e) := by
  cases e with
  | lTx | uRx => exact (facade_of_running hr).trans (if_pos (of_decide_eq_true hfits))
  | uTxdoneOk | uTxdoneFail | uLinkUp | uLinkDown => exact facade_of_running hr

/-- Settles O37: the lengths that the statement names are those of R77. -/
theorem outputRowsEmit : Obligations.OutputRowsEmit :=
  fun _ hr =>
    ⟨fun segment hmin hmax => exec_output (e := .lTx segment) hr (decide_eq_true ⟨hmin, hmax⟩),
      fun apdu hn => exec_output (e := .uRx apdu) hr (decide_eq_true hn),
      exec_output (e := .uTxdoneOk) hr rfl, exec_output (e := .uTxdoneFail) hr rfl,
      exec_output (e := .uLinkUp) hr rfl, exec_output (e := .uLinkDown) hr rfl⟩

end Sys2Proof.Machine

namespace Sys2Proof.Machine

/-! ## A step without an event (R185) -/

/-- Settles O9. -/
theorem stepHoldsStateWithoutInput : Obligations.StepHoldsStateWithoutInput :=
  fun _ hin => step_of_inputs_nil hin

/-! ## The halted block (R173, R174) -/

theorem facade_of_halted {s : State} (o : Host.Outcome State Fault Refusal)
    (hc : s.cfg.WellFormed) (hs : s.Halted) : facade s o = .next s :=
  (if_pos hc).trans (if_pos hs)

theorem exec_of_halted (i : Instr) {s : State} (hc : s.cfg.WellFormed) (hs : s.Halted) :
    exec i s = .next s := by
  obtain ⟨o, ho⟩ := exec_eq_facade i s
  rw [ho, facade_of_halted o hc hs]

theorem runTransaction_of_halted (x : Transaction) {s : State} (hc : s.cfg.WellFormed)
    (hs : s.Halted) : runTransaction x s = .next s := by
  cases hd : decode (.evtIn x) with
  | ok i => rw [runTransaction_of_decode s hd, exec_of_halted i hc hs]
  | error e =>
    simp only [runTransaction, hd]
    exact facade_of_halted _ hc hs

/-- `runEvents_of_halted` says where a run of a halted block ends; with a well-formed configuration
the run does go through. -/
theorem runEvents_completes_of_halted (es : List Instr) {s : State} (hc : s.cfg.WellFormed)
    (hs : s.Halted) : runEvents es s = .next s := by
  induction es with
  | nil => rfl
  | cons i rest ih => rw [runEvents_cons_of_next (exec_of_halted i hc hs), ih]

/-- Settles O42: the Facade stands before every row and before the refusal of an undescribed
transaction. -/
theorem haltedBlockIgnoresEverything : Obligations.HaltedBlockIgnoresEverything := by
  refine ⟨fun i _ => exec_of_halted i, fun s x rest hc hs hin => ?_⟩
  rw [step_of_inputs_cons hin]
  exact runTransaction_of_halted x (s := { s with inputs := rest }) hc hs

/-- Settles O43, by induction on the run. -/
theorem faultIsPermanent : Obligations.FaultIsPermanent :=
  ⟨fun es _ => runEvents_completes_of_halted es, fun _ => rfl⟩

/-! ## The precise violation and its causes (R171, R172, R175) -/

theorem Cause.one_le_code_toNat (c : Cause) : 1 ≤ c.code.toNat := by
  cases c <;> decide

/-- Settles O44: a row that writes `fault` is a violation, and a violation is `State.raise`. -/
theorem violationWritesOnlyTheCause : Obligations.ViolationWritesOnlyTheCause := by
  intro i s t ht hs hfault
  rcases exec_next ht with ⟨hhalted, -⟩ | ⟨-, he⟩
  · exact absurd hs hhalted
  rcases he.violation_or_keeps_fault with ⟨⟨c, rfl⟩, -⟩ | hkeeps
  · exact ⟨rfl, c.one_le_code_toNat, c.code_toNat_le⟩
  · exact absurd (hkeeps.trans hs) hfault

/-- An event that the gate table calls valid leaves a running block unfaulted (R157). -/
theorem exec_valid_keeps_unfaulted {i : Instr} {s t : State} (hr : s.Running)
    (hi : i.isInput = true) (hv : validEvent s i) (ht : exec i s = .next t) : t.fault = 0#4 := by
  rcases exec_next ht with ⟨hhalted, -⟩ | ⟨-, he⟩
  · exact absurd hhalted hr.not_halted
  rcases he.violation_or_keeps_fault with ⟨-, hinvalid⟩ | hkeeps
  · exact absurd hv (hinvalid hi)
  · exact hkeeps.trans hr.2

/-- Settles O45: the equations of the violating cases, whose hypotheses are the tests that stand
before each cause. -/
theorem causesAreTestedInOrder : Obligations.CausesAreTestedInOrder := by
  refine fun s hc => ⟨fun i => exec_of_halted i hc, fun hfault => ?_⟩
  have hr : s.Running := ⟨hc, hfault⟩
  exact
    ⟨fun _ hi => exec_of_isIllegal hi hr,
      fun _ => exec_uSend_of_offline hr,
      fun segment => exec_lRx_of_offline segment hr,
      exec_lLinkUp_of_online hr,
      exec_lLinkDown_of_offline hr,
      fun _ => exec_uSend_of_busy hr,
      fun hidle => ⟨exec_lTxdoneOk_of_idle hr hidle, exec_lTxdoneFail_of_idle hr hidle⟩,
      fun _ => exec_uSend_of_oversize hr,
      fun _ => exec_lRx_of_tooLong hr,
      fun _ _ => exec_valid_keeps_unfaulted hr⟩

/-! ## The protocol violations (R180) -/

theorem State.not_accepts_iff {s : State} {seq : Seq} {payload : List Byte} :
    ¬ s.Accepts seq payload ↔
      seq ≠ inc6 s.rxSeq ∨ s.cfg.maxApduSize < s.rxLen + payload.length := by
  rw [State.Accepts, not_and_or, Nat.not_le]

/-- Settles O46: a segment is received as the class row of its flags, and each violation is one of
that row's cases. -/
theorem protocolViolationsAreSilent : Obligations.ProtocolViolationsAreSilent := by
  refine fun s hr hl => ⟨exec_lRx_nil hr hl, fun fin seq payload hn =>
    ⟨fun hidle => ?idle, fun hactive hrejects => ?rejected, fun _ => ?interrupted⟩⟩
  case idle =>
    exact (exec_lRx_encSeg false fin seq payload s).trans (exec_nonFir_of_idle fin hr hl hn hidle)
  case rejected =>
    exact ⟨s.rxToIdle, (exec_lRx_encSeg false fin seq payload s).trans
      (exec_nonFir_of_rejected fin hr hl hn hactive (State.not_accepts_iff.mpr hrejects)), rfl⟩
  case interrupted =>
    cases fin with
    | false =>
      exact ⟨_, (exec_lRx_encSeg true false seq payload s).trans (exec_segFirst_of_open hr hl hn),
        hr.2, rfl, (List.append_nil _).symm, rfl⟩
    | true =>
      exact ⟨_, (exec_lRx_encSeg true true seq payload s).trans (exec_segSingle_of_open hr hl hn),
        hr.2, rfl, rfl, rfl⟩

end Sys2Proof.Machine

namespace Sys2Proof.Machine

/-! ## The duties of the neighbours and the gate table (R203 to R206, R208)

The neighbours know `link` and `tx_busy` from the events alone, so that a duty kept is a row of the
gate table satisfied (R157), and a duty broken is a row violated. -/

/-- The flags of the neighbours' view are the registers they stand for. The count of outstanding
segments is `Neighbours.OutstandingIsBusy`. -/
structure Neighbours.Follows (v : Neighbours) (s : State) : Prop where
  upperUp_eq : v.upperUp = decide (s.link = .online)
  upperPending_eq : v.upperPending = s.txBusy
  llUp_eq : v.llUp = decide (s.link = .online)

/-- Each event that writes `link` or `tx_busy` is issued or observed by the neighbour that follows
the register. -/
theorem Effect.keeps_follows {i : Instr} {s t : State} {v : Neighbours} (he : Effect i s t)
    (hi : i.isInput = true) (hfault : t.fault = 0#4) (h : v.Follows s) :
    (v.after i s t).Follows t := by
  obtain ⟨hup, hpending, hll⟩ := h
  cases he with
  | violation _ _ c => exact absurd hfault (s.raise_fault_ne_zero c)
  | send =>
    rw [v.after_of_one_output _ rfl]
    exact ⟨hup, rfl, hll⟩
  | nextChunk =>
    rw [v.after_of_one_output _ rfl]
    exact ⟨hup, hpending, hll⟩
  | sendDone | sendFailed =>
    rw [v.after_of_one_output _ rfl]
    exact ⟨hup, rfl, hll⟩
  | linkUp =>
    rw [v.after_of_one_output _ rfl]
    exact ⟨rfl, hpending, rfl⟩
  | linkDown =>
    rw [v.after_of_one_output _ rfl]
    exact ⟨rfl, rfl, rfl⟩
  | receiveEmpty =>
    rw [v.after_of_silent _ rfl]
    exact ⟨hup, hpending, hll⟩
  | received _ _ _ _ hrow _ _ hd =>
    obtain ⟨bytes, rfl, -⟩ := lRx_of_received hi hrow
    obtain ⟨⟨hlink, -, -, -, hbusy, -⟩, -⟩ := receiveDecoded_keeps_transmit hd
    rw [v.after_received hd]
    exact ⟨by rw [hup, hlink], hpending.trans hbusy.symm, by rw [hll, hlink]⟩
  | output e => simp [OutEvent.instr_isInput] at hi

/-- What holds all along a run in keeping with the duties: the watched invariant, no violation so
far, and a view that follows the block. -/
structure DutifulInv (v : Neighbours) (s : State) : Prop extends WatchedInv v s where
  unfaulted : s.fault = 0#4
  follows : v.Follows s

theorem dutifulInv_reset {c : Config} (hc : c.WellFormed) :
    DutifulInv Neighbours.initial (State.resetWith c) :=
  ⟨watchedInv_reset hc, rfl, rfl, rfl, rfl⟩

theorem isInput_of_validEvent {i : Instr} {s : State} (h : validEvent s i) : i.isInput = true := by
  cases i with
  | uSend | lRx | lTxdoneOk | lTxdoneFail | lLinkUp | lLinkDown => rfl
  | _ => cases h

/-- The event breaks the duty of the cause that the block answers it with (R172). -/
def CaughtAs (v : Neighbours) (s : State) (i : Instr) (cause : Cause) : Prop :=
  v.breaches s.cfg cause i ∧ exec i s = .next (s.raise cause)

namespace DutifulInv

variable {v : Neighbours} {s : State}

theorem running (h : DutifulInv v s) : s.Running := ⟨h.wellFormed, h.unfaulted⟩

theorem upperUp_iff (h : DutifulInv v s) : v.upperUp = true ↔ s.link = .online := by
  rw [h.follows.upperUp_eq, decide_eq_true_iff]

theorem llUp_iff (h : DutifulInv v s) : v.llUp = true ↔ s.link = .online := by
  rw [h.follows.llUp_eq, decide_eq_true_iff]

theorem llUp_eq_false_iff (h : DutifulInv v s) : v.llUp = false ↔ s.link = .offline := by
  rw [← Bool.not_eq_true, h.llUp_iff]
  cases s.link <;> simp

theorem llOutstanding_eq_zero_iff (h : DutifulInv v s) :
    v.llOutstanding = 0 ↔ s.txBusy = false :=
  (Neighbours.outstandingIsBusy_iff.mp (h.outstanding h.unfaulted)).2.symm

theorem llOutstanding_pos_iff (h : DutifulInv v s) : 0 < v.llOutstanding ↔ s.txBusy = true := by
  rw [Nat.pos_iff_ne_zero, Ne, h.llOutstanding_eq_zero_iff, Bool.not_eq_false]

/-- The duties are the gate table of R157 as the neighbours see it. -/
theorem mayIssue_iff (h : DutifulInv v s) (i : Instr) : v.mayIssue s.cfg i ↔ validEvent s i := by
  cases i with
  | uSend apdu =>
    simp only [Neighbours.mayIssue, validEvent, h.upperUp_iff, h.follows.upperPending_eq]
  | lRx segment => simp only [Neighbours.mayIssue, validEvent, h.llUp_iff]
  | lTxdoneOk | lTxdoneFail => exact h.llOutstanding_pos_iff
  | lLinkUp => exact h.llUp_eq_false_iff
  | lLinkDown => exact h.llUp_iff
  | _ => exact Iff.rfl

theorem step {i : Instr} (h : DutifulInv v s) (hi : v.mayIssue s.cfg i) :
    ∃ t, exec i s = .next t ∧ DutifulInv (v.after i s t) t := by
  have hvalid := (h.mayIssue_iff i).mp hi
  have hinput := isInput_of_validEvent hvalid
  obtain ⟨t, ht⟩ := exec_input_completes hinput h.wellFormed h.inv
  have hfault := exec_valid_keeps_unfaulted h.running hinput hvalid ht
  rcases exec_next ht with ⟨hhalted, -⟩ | ⟨-, he⟩
  · exact absurd hhalted h.running.not_halted
  · exact ⟨t, ht, h.toWatchedInv.step hinput ht, hfault, he.keeps_follows hinput hfault h.follows⟩

theorem run {es : List Instr} (h : DutifulInv v s) (hes : KeepsDuties es v s) :
    ∃ v' t, runWatched es v s = some (v', t) ∧ DutifulInv v' t := by
  induction es generalizing v s with
  | nil => exact ⟨v, s, rfl, h⟩
  | cons i rest ih =>
    obtain ⟨hi, hrest⟩ := hes
    obtain ⟨u, hu, hnext⟩ := h.step hi
    rw [runWatched_cons_of_next hu]
    exact ih hnext (hrest u hu)

/-! ### A broken duty

The block answers with the cause of the first test that fails (R175), and the duty of that test is
one the event breaks. -/

theorem uSend_caught (h : DutifulInv v s) {apdu : List Byte}
    (hv : ¬ validEvent s (.uSend apdu)) : ∃ cause, CaughtAs v s (.uSend apdu) cause := by
  cases hl : s.link with
  | offline =>
    have hdown : v.upperUp = false := by simp [h.follows.upperUp_eq, hl]
    exact ⟨.sendOffline, hdown, exec_uSend_of_offline h.running hl⟩
  | online =>
    cases hb : s.txBusy with
    | true =>
      have hpending : v.upperPending = true := h.follows.upperPending_eq.trans hb
      exact ⟨.sendBusy, hpending, exec_uSend_of_busy h.running hl hb⟩
    | false =>
      have hlong : s.cfg.maxApduSize < apdu.length := Nat.not_le.mp fun hn => hv ⟨hl, hb, hn⟩
      exact ⟨.sendOversize, hlong, exec_uSend_of_oversize h.running hl hb hlong⟩

theorem lRx_caught (h : DutifulInv v s) {segment : List Byte}
    (hv : ¬ validEvent s (.lRx segment)) : ∃ cause, CaughtAs v s (.lRx segment) cause := by
  cases hl : s.link with
  | offline =>
    exact ⟨.rxOffline, h.llUp_eq_false_iff.mpr hl, exec_lRx_of_offline segment h.running hl⟩
  | online =>
    have hlong : 1 + s.cfg.maxSegmentUserDataSize < segment.length :=
      Nat.not_le.mp fun hn => hv ⟨hl, hn⟩
    exact ⟨.rxOversize, hlong, exec_lRx_of_tooLong h.running hl hlong⟩

theorem breach_caught (h : DutifulInv v s) {i : Instr} (hi : i.isInput = true)
    (hbreach : ¬ v.mayIssue s.cfg i) : ∃ cause, CaughtAs v s i cause := by
  have hv : ¬ validEvent s i := (h.mayIssue_iff i).not.mp hbreach
  cases i with
  | uSend apdu => exact h.uSend_caught hv
  | lRx segment => exact h.lRx_caught hv
  | lTxdoneOk =>
    have hb : s.txBusy = false := Bool.eq_false_of_not_eq_true hv
    exact ⟨.txdoneIdle, h.llOutstanding_eq_zero_iff.mpr hb, exec_lTxdoneOk_of_idle h.running hb⟩
  | lTxdoneFail =>
    have hb : s.txBusy = false := Bool.eq_false_of_not_eq_true hv
    exact ⟨.txdoneIdle, h.llOutstanding_eq_zero_iff.mpr hb, exec_lTxdoneFail_of_idle h.running hb⟩
  | lLinkUp =>
    have hup : v.llUp = true := Bool.eq_true_of_not_eq_false hbreach
    exact ⟨.linkupOnline, hup, exec_lLinkUp_of_online h.running (h.llUp_iff.mp hup)⟩
  | lLinkDown =>
    have hdown : v.llUp = false := Bool.eq_false_of_not_eq_true hbreach
    exact ⟨.linkdownOffline, hdown,
      exec_lLinkDown_of_offline h.running (h.llUp_eq_false_iff.mp hdown)⟩
  | illegalIn5 | illegalIn6 | illegalIn7 | illegalIn8 | illegalIn9 | illegalInA | illegalInB
  | illegalInD | illegalInE | illegalInF =>
    exact ⟨.illegalEvent, rfl, exec_of_isIllegal rfl h.running⟩
  | _ => cases hi

end DutifulInv

/-- Settles O55: a dutiful run keeps `DutifulInv`, under which the duties are the gate table. -/
theorem dutifulNeighboursNeverFault : Obligations.DutifulNeighboursNeverFault := by
  intro c es hc hes
  obtain ⟨v, t, hrun, h⟩ := (dutifulInv_reset hc).run hes
  exact ⟨v, t, hrun, h.unfaulted, fun i hi hbreach => h.breach_caught hi hbreach⟩

/-! ## A run of transmit events adds transmit outputs only -/

theorem Effect.adds_transmitOutput {i : Instr} {s t : State} {e : OutEvent} (he : Effect i s t)
    (hi : isTransmit i = true) (hmem : e ∈ newOutputs s t) : isTransmitOutput e = true := by
  cases he with
  | violation => exact absurd hmem (not_mem_newOutputs_of_silent rfl)
  | send | nextChunk =>
    cases eq_of_mem_newOutputs (emitChunk_outputs ..) hmem
    rfl
  | sendDone | sendFailed =>
    cases eq_of_mem_newOutputs (State.emit_outputs ..) hmem
    rfl
  | linkUp | linkDown | receiveEmpty => cases hi
  | received _ g _ _ hrow =>
    rcases hrow with rfl | ⟨bytes, rfl, -⟩
    · cases (isReceive_of_isTransmit hi).symm.trans (Segment.instr_isReceive g)
    · cases hi
  | output e => cases e <;> cases hi

theorem runEvents_adds_transmitOutput {es : List Instr} {s t : State} {e : OutEvent}
    (hes : ∀ i ∈ es, isTransmit i = true) (h : runEvents es s = .next t)
    (hmem : e ∈ newOutputs s t) : isTransmitOutput e = true := by
  induction es generalizing s with
  | nil => cases h; exact absurd hmem (not_mem_newOutputs_of_silent rfl)
  | cons i rest ih =>
    obtain ⟨hi, hrest⟩ := List.forall_mem_cons.mp hes
    obtain ⟨u, hu, hrun⟩ := runEvents_cons_next h
    rcases exec_next hu with ⟨-, rfl⟩ | ⟨-, he⟩
    · exact ih hrest hrun hmem
    · rw [newOutputs_of_outputs_eq
        (outputs_grow_trans he.outputs_grow (runEvents_outputs_grow hrun)), List.mem_append] at hmem
      exact hmem.elim (he.adds_transmitOutput hi) (ih hrest hrun)

/-- So what it adds to the transmit outputs is all it adds. -/
theorem newOutputs_of_transmit_run {es : List Instr} {s t : State} {out : List OutEvent}
    (hes : ∀ i ∈ es, isTransmit i = true) (h : runEvents es s = .next t)
    (hout : t.transmitOutputs = s.transmitOutputs ++ out) : newOutputs s t = out := by
  rw [State.transmitOutputs_append (runEvents_outputs_grow h), List.append_right_inj,
    List.filter_eq_self.mpr fun _ => runEvents_adds_transmitOutput hes h] at hout
  exact hout

/-! ## The stale result (R207) -/

/-- The state that a link cycle leaves of an Online block (R64). -/
def State.cycled (s : State) : State :=
  { State.resetWith s.cfg with
    link := .online, inputs := s.inputs, outputs := s.outputs ++ [.uLinkDown, .uLinkUp] }

theorem State.cycled_inv (s : State) : s.cycled.Inv := (resetWith_inv s.cfg).online 0#6

/-- After a link cycle the block takes transmit events as if the old send had never been. -/
theorem run_after_linkCycle {es : List Instr} {s t : State} {out : List OutEvent} (hr : s.Running)
    (hinv : s.Inv) (hl : s.link = .online) (hes : ∀ i ∈ es, isTransmit i = true)
    (h : runEvents es s.cycled = .next t)
    (hout : t.transmitOutputs = s.cycled.transmitOutputs ++ out) :
    runEvents (.lLinkDown :: .lLinkUp :: es) s = .next t ∧
      newOutputs s t = [.uLinkDown, .uLinkUp] ++ out := by
  have hcycle : runEvents [.lLinkDown, .lLinkUp] s = .next s.cycled :=
    linkCycleForgetsEverything s hr hinv hl
  refine ⟨(runEvents_append hcycle).trans h, newOutputs_of_outputs_eq ?_⟩
  rw [← List.append_assoc, ← newOutputs_of_transmit_run hes h hout]
  exact runEvents_outputs_grow h

/-- Settles O56: the stale result meets a block in which nothing is left of the old send, and is the
first answer to the new one (O17, O18). -/
theorem staleResultIsTakenForTheCurrentSegment :
    Obligations.StaleResultIsTakenForTheCurrentSegment := by
  intro apdu s hr hinv hl _ hmin hmax
  have hmore : [Instr.lTxdoneOk].count .lTxdoneOk < segmentCount s.cycled.cfg apdu.length :=
    (succ_lt_segmentCount_iff (k := 0) hr.1).mpr (by omega)
  refine ⟨?ok, ?fail⟩
  case ok =>
    obtain ⟨t, ht, hfault, hout, -⟩ := sendEmitsItsSegmentsInOrder apdu s.cycled [.lTxdoneOk]
      ⟨hr.1, rfl⟩ s.cycled_inv rfl rfl hmax (by simp) hmore.le
    rw [if_neg hmore.ne, List.append_nil] at hout
    obtain ⟨hrun, hnew⟩ := run_after_linkCycle hr hinv hl (by simp [isTransmit]) ht hout
    exact ⟨t, hrun, hfault, hnew, by rw [segmentsOf_length]; exact hmore⟩
  case fail =>
    obtain ⟨t, ht, hfault, hout, -⟩ := failedSendStopsAfterItsSegments apdu s.cycled []
      ⟨hr.1, rfl⟩ s.cycled_inv rfl rfl hmax (by simp) (segmentCount_pos _ _)
    rw [List.append_assoc] at hout
    obtain ⟨hrun, hnew⟩ := run_after_linkCycle hr hinv hl (by simp [isTransmit]) ht hout
    exact ⟨t, hrun, hfault, hnew⟩

end Sys2Proof.Machine

namespace Sys2Proof

/-! ## The decoder and the encoder are inverse (R71, R72, R76 to R78) -/

/-- The receipt row of a segment is encoded as that segment (R72, R102). -/
theorem encode_segment_instr (g : Segment) :
    encode g.instr = .tpdu (encSeg g.fir g.fin g.seq g.payload) := by
  obtain ⟨fir, fin, seq, payload⟩ := g
  cases fir <;> cases fin <;> rfl

theorem decode_tpdu_encSeg (fir fin : Bool) (seq : Seq) (payload : List Byte) :
    decode (.tpdu (encSeg fir fin seq payload)) = .ok (Segment.instr ⟨fir, fin, seq, payload⟩) := by
  simp only [decode, decodeSegment, decSeg_encSeg]

/-- Settles O1: the codes of an event are told apart by the decoder's table, and the class and the
number of a segment are read back from its header. -/
theorem decodeOfEncodeIsTheInstruction : Obligations.DecodeOfEncodeIsTheInstruction := by
  intro i
  cases i with
  | segMiddle seq payload => exact decode_tpdu_encSeg false false seq payload
  | segLast seq payload => exact decode_tpdu_encSeg false true seq payload
  | segFirst seq payload => exact decode_tpdu_encSeg true false seq payload
  | segSingle seq payload => exact decode_tpdu_encSeg true true seq payload
  | lTx | uRx | uLinkDown | uLinkUp | uTxdoneFail | uTxdoneOk => rfl
  | _ => exact Machine.decode_evtIn_of_encode rfl

/-- Settles O6: each of the words is the encoding of its row. -/
theorem writtenWordsDecode : Obligations.WrittenWordsDecode :=
  have decode_encode := decodeOfEncodeIsTheInstruction
  ⟨decode_encode .lLinkDown, decode_encode (.uSend [0xAA#8]), decode_encode .illegalInB,
    decode_encode (.lTx [0xC0#8]), decode_encode .uTxdoneFail,
    decode_encode (.segFirst 0#6 [0xAA#8, 0xBB#8]), decode_encode (.segLast 2#6 [0xEE#8]),
    decode_encode (.segSingle 0#6 [])⟩

theorem bareEvent_eq_ok {data : List Byte} {i j : Instr} :
    bareEvent data j = .ok i ↔ data = [] ∧ j = i := by
  cases data <;> simp [bareEvent]

/-- The three kinds of input code: four events that carry nothing, two that carry bytes (R77), and the
ten illegal ones (R78). -/
theorem inputCode_cases (code : EvCode) :
    code ∈ [0x0#4, 0x1#4, 0x2#4, 0x3#4] ∨ code ∈ [0x4#4, 0xC#4] ∨
      code ∈ [0x5#4, 0x6#4, 0x7#4, 0x8#4, 0x9#4, 0xA#4, 0xB#4, 0xD#4, 0xE#4, 0xF#4] := by
  decide +revert

/-- An input word that decodes is the encoding of its row, but for the bytes beside an illegal code. -/
theorem encode_of_decode_evtIn {code : EvCode} {data : List Byte} {i : Instr}
    (h : decode (.evtIn ⟨code, data⟩) = .ok i) :
    encode i = .evtIn ⟨code, if i.isIllegal then [] else data⟩ := by
  rcases inputCode_cases code with hbare | hdata | hillegal
  · fin_cases hbare <;> obtain ⟨rfl, rfl⟩ := bareEvent_eq_ok.mp h <;> rfl
  · fin_cases hdata <;> cases h <;> rfl
  · fin_cases hillegal <;> cases h <;> rfl

/-- An output word that decodes is the encoding of its row: no output code is illegal (R77). -/
theorem encode_of_decode_evtOut {t : Transaction} {i : Instr}
    (h : decode (.evtOut t) = .ok i) : encode i = .evtOut t ∧ i.isIllegal = false := by
  obtain ⟨code, data⟩ := t
  simp only [decode, decodeOut] at h
  split at h
  case h_1 | h_6 => cases h; exact ⟨rfl, rfl⟩
  case h_2 | h_3 | h_4 | h_5 => obtain ⟨rfl, rfl⟩ := bareEvent_eq_ok.mp h; exact ⟨rfl, rfl⟩
  case h_7 => cases h

theorem isIllegal_segment_instr (g : Segment) : g.instr.isIllegal = false := by
  obtain ⟨fir, fin, seq, payload⟩ := g
  cases fir <;> cases fin <;> rfl

theorem encode_of_decode_tpdu {bytes : List Byte} {i : Instr} (h : decode (.tpdu bytes) = .ok i) :
    encode i = .tpdu bytes ∧ i.isIllegal = false := by
  simp only [decode, decodeSegment] at h
  split at h
  · cases h
  · next g hdec =>
    cases h
    exact ⟨by rw [encode_segment_instr, encSeg_of_decSeg hdec], isIllegal_segment_instr g⟩

/-- Settles O2: of the three code spaces only the input codes have illegal rows. -/
theorem encodeOfDecodeIsTheWord : Obligations.EncodeOfDecodeIsTheWord := by
  intro e i h
  cases e with
  | evtIn t =>
    have henc := encode_of_decode_evtIn (code := t.code) (data := t.data) h
    refine ⟨fun hlegal => ?_, fun hillegal => ⟨t.code, t.data, rfl, ?_⟩⟩
    · rwa [hlegal] at henc
    · rwa [hillegal] at henc
  | evtOut t =>
    obtain ⟨henc, hlegal⟩ := encode_of_decode_evtOut h
    exact ⟨fun _ => henc, by simp [hlegal]⟩
  | tpdu bytes =>
    obtain ⟨henc, hlegal⟩ := encode_of_decode_tpdu h
    exact ⟨fun _ => henc, by simp [hlegal]⟩

end Sys2Proof
